-- ==== Sys2Proof/Word.lean ====
section
/-!
DEFINITION. Sys2Proof/Word.lean: the widths of HDEC (spec/00_scope.md R6, R8): every field is an unsigned bit field and bit 0
is the least significant bit of every word.
-/
namespace Sys2Proof

/-- A command word, or the value of a read register: CMD_W = CNT_W = 32 bits (R6, R65). -/
abbrev Word32 := BitVec 32

/-- A node word as node memory stores it: NODE_W = 28 bits (R6, R68). -/
abbrev NodeWord := BitVec 28

/-- A node index, the one kind of address HDEC has: PTR_W = 9 bits (R6, R50). -/
abbrev NodeIdx := BitVec 9

/-- A symbol: SYM_W = 8 bits (R6, R15). -/
abbrev Symb := BitVec 8

/-- A bitstream element, the code one BIT command carries: ELEM_W = 8 bits (R6, R14). -/
abbrev Elem := BitVec 8

/-- The address of a read register (R35, R38). -/
abbrev RdAddr := BitVec 4

end Sys2Proof
end

