-- ==== Sys2Proof/Config.lean ====
section
/-!
DEFINITION. Sys2Proof/Config.lean: what one implementation of HDEC fixes and the spec leaves open: the depth of the output
FIFO (spec/00_scope.md R6, spec/93_implementation_defined.md U8). It is the spec's one OPEN parameter.
-/
namespace Sys2Proof

/-- FIFO_DEPTH with its range, 1 ≤ FIFO_DEPTH ≤ 65535 (R6). The machine's state carries one, no step changes it, and a statement
about every state therefore holds for every depth the spec allows (assumption log 1). -/
structure FifoDepth where
  val      : Nat
  positive : 1 ≤ val
  bounded  : val ≤ 65535
deriving DecidableEq, Repr

namespace Config

/-- N_NODES, the number of node-memory entries: 2 ^ PTR_W (R6, R32). -/
abbrev nNodes : Nat := 512

/-- DESIGN CHOICE (log 1, unsafe): the depth `State.reset` is built with, the largest the spec allows. No statement rests on it. -/
def resetFifoDepth : FifoDepth := ⟨65535, by decide, by decide⟩

end Config
end Sys2Proof
end

