-- ==== Sys2Proof/Syntax.lean ====
section
/-!
DEFINITION. Sys2Proof/Syntax.lean: HDEC's eight commands, one constructor per row of spec/opcode_table.json
(spec/30_encoding.md R66, R67). A word that is not Legal is no command: it has no constructor, and what accepting one does is
`Machine.stepCommand`'s (R75).
-/
namespace Sys2Proof

/-- A command with its operand fields taken as they are in the word (R67, R70). -/
inductive Instr where
  /-- NOP, format Z (R90). -/
  | nop
  /-- SETADDR, format A: ADDR = [8:0] (R85). -/
  | setaddr (addr : NodeIdx)
  /-- WNODE, format N: NODE = [27:0] (R86). -/
  | wnode (node : NodeWord)
  /-- SETROOT, format R: RV = [9], IDX = [8:0] (R87). -/
  | setroot (rv : Bool) (idx : NodeIdx)
  /-- START, format Z (R91). -/
  | start
  /-- BIT, format E: ELEM = [7:0] (R100). -/
  | bit (elem : Elem)
  /-- FINISH, format Z (R93). -/
  | finish
  /-- ABORT, format Z (R94). -/
  | abort
deriving DecidableEq, Repr

end Sys2Proof
end

