-- ==== Sys2Proof/WellFormed.lean ====
section
/-!
DEFINITION. Sys2Proof/WellFormed.lean: the three forms a command takes, and which of their terms are well formed.

A term of `Instr` always is: its operand widths are its types (spec/30_encoding.md R67, R70). A 32-bit WORD is well formed when
it is Legal (R69). A line of ASSEMBLY has numerals for operands, and is well formed when each is in the range R77 gives it.
-/
namespace Sys2Proof

/-- RES[opc], the payload bits of opcode `opc` that must be 0 (R69); for the reserved opcodes every word is refused already. -/
def reservedMask (opc : BitVec 4) : Word32 :=
  match opc.toNat with
  | 0 => 0x0FFFFFFF#32
  | 1 => 0x0FFFFE00#32
  | 2 => 0x00000000#32
  | 3 => 0x0FFFFC00#32
  | 4 => 0x0FFFFFFF#32
  | 5 => 0x0FFFFF00#32
  | 6 => 0x0FFFFFFF#32
  | 7 => 0x0FFFFFFF#32
  | _ => 0x00000000#32

/-- `Legal(cmd)`: the opcode is assigned and no reserved payload bit is set (R69). The decoder is written from the format
table R67 and does not use this check; that the two agree is a statement of its own. -/
def wordLegal (w : Word32) : Bool :=
  (w.extractLsb' 28 4).toNat ≤ 7 && (w &&& reservedMask (w.extractLsb' 28 4)) == 0#32

/-- The operand `<e>` of BIT: `0`, `1`, or a byte written `0xNN` or `'c'` (R77). -/
inductive BitArg where
  | zero
  | one
  | byte (n : Nat)
deriving DecidableEq, Repr

/-- The operand list of a WNODE line: `<l>, <r>, <s>`, with `none` for the `-` of an absent child (R77). -/
structure NodeArgs where
  left  : Option Nat
  right : Option Nat
  sym   : Nat
deriving DecidableEq, Repr

/-- One line of assembly: a command (R77) or a pseudo-instruction (R78). -/
inductive Asm where
  | nop
  | setaddr (i : Nat)
  | wnode (n : NodeArgs)
  | wnodeLeaf (s : Nat)
  | wnodeNode (l r : Option Nat)
  | setroot (i : Option Nat)
  | start
  | bit (e : BitArg)
  | finish
  | abort
  | word (w : Nat)
  | loadnode (i : Nat) (n : NodeArgs)
  | loadtree (base : Nat) (ns : List NodeArgs)
  | bits (cs : List Nat)
  | decode (cs : List Nat)
deriving DecidableEq, Repr

/-- A child operand is a node index 0..511 or absent (R77). -/
def childArgWf : Option Nat → Bool
  | none => true
  | some i => i < 512

/-- A WNODE operand list: two children in range and a byte (R77). -/
def NodeArgs.wf (n : NodeArgs) : Bool :=
  childArgWf n.left && childArgWf n.right && decide (n.sym < 256)

/-- A BIT operand is a byte (R77). -/
def BitArg.wf : BitArg → Bool
  | .zero => true
  | .one => true
  | .byte n => n < 256

/-- Every operand of the line is in the range R77 gives it; the characters of a string operand are bytes. -/
def Asm.wf : Asm → Bool
  | .nop => true
  | .setaddr i => i < 512
  | .wnode n => n.wf
  | .wnodeLeaf s => s < 256
  | .wnodeNode l r => childArgWf l && childArgWf r
  | .setroot i => childArgWf i
  | .start => true
  | .bit e => e.wf
  | .finish => true
  | .abort => true
  | .word w => w < 2 ^ 32
  | .loadnode i n => decide (i < 512) && n.wf
  | .loadtree base ns => decide (base < 512) && ns.all NodeArgs.wf
  | .bits cs => cs.all (· < 256)
  | .decode cs => cs.all (· < 256)

end Sys2Proof
end

