-- ==== Sys2Proof/Decode.lean ====
section
/-!
DEFINITION. Sys2Proof/Decode.lean: the decoder of command words, total on every 32-bit value and rejecting by name, and after
it the encoder (spec/30_encoding.md R65 to R74). A command is always one whole word (R74), so no byte order arises (R52).
-/
namespace Sys2Proof

/-- Why a word is not Legal. -/
inductive DecodeError where
  /-- OPC is one of 0x8 to 0xF (R72). -/
  | reservedOpcode
  /-- OPC is assigned and a payload bit that must be 0 is set (R71). -/
  | reservedPayload
deriving DecidableEq, Repr

/-- OPC = [31:28] (R65). -/
def opcodeOf (w : Word32) : BitVec 4 := w.extractLsb' 28 4

/-- The command `i`, provided the reserved field `res` of its format is zero (R67, R71). -/
def ifReservedZero {n : Nat} (res : BitVec n) (i : Instr) : Except DecodeError Instr :=
  if res = 0#n then .ok i else .error .reservedPayload

/-- The command a word is (R66, R67), or the name of the rule that rejects it. -/
def decode (w : Word32) : Except DecodeError Instr :=
  match (opcodeOf w).toNat with
  | 0 => ifReservedZero (w.extractLsb' 0 28) .nop
  | 1 => ifReservedZero (w.extractLsb' 9 19) (.setaddr (w.extractLsb' 0 9))
  | 2 => .ok (.wnode (w.extractLsb' 0 28))
  | 3 => ifReservedZero (w.extractLsb' 10 18) (.setroot (w.getLsbD 9) (w.extractLsb' 0 9))
  | 4 => ifReservedZero (w.extractLsb' 0 28) .start
  | 5 => ifReservedZero (w.extractLsb' 8 20) (.bit (w.extractLsb' 0 8))
  | 6 => ifReservedZero (w.extractLsb' 0 28) .finish
  | 7 => ifReservedZero (w.extractLsb' 0 28) .abort
  | _ => .error .reservedOpcode

/-- The word of a command, from the encodings R67 and R77 give; `++` is the concatenation `{a, b}` of R8. -/
def encode : Instr → Word32
  | .nop => 0x0#4 ++ 0#28
  | .setaddr addr => 0x1#4 ++ 0#19 ++ addr
  | .wnode node => 0x2#4 ++ node
  | .setroot rv idx => 0x3#4 ++ 0#18 ++ BitVec.ofBool rv ++ idx
  | .start => 0x4#4 ++ 0#28
  | .bit elem => 0x5#4 ++ 0#20 ++ elem
  | .finish => 0x6#4 ++ 0#28
  | .abort => 0x7#4 ++ 0#28

/-- The instruction the decoder reads from the low `nbits` bits of `w`, every bit above them 0. No command is longer than one
32-bit word (R74), so a number that does not fit one is no command. -/
def decodeTableWord (nbits w : Nat) : Option Instr :=
  if w % 2 ^ nbits < 2 ^ 32 then (decode (BitVec.ofNat 32 (w % 2 ^ nbits))).toOption else none

end Sys2Proof
end

