-- ==== Sys2Proof/Machine/State.lean ====
section
/-!
DEFINITION. Sys2Proof/Machine/State.lean: everything spec/10_state.md gives HDEC, as plain data, with the two ways a step of the
model can stop, and the state after reset.
-/
namespace Sys2Proof.Machine

/-- The values STATE takes (R22); 5 to 7 are never taken. -/
inductive SessState where
  /-- 0: no session, after reset or ABORT. -/
  | idle
  /-- 1: a session with a present root, BIT walks the tree. -/
  | run
  /-- 2: a session with an absent root, BIT elements are discarded. -/
  | skip
  /-- 3: the session ended successfully by FINISH. -/
  | done
  /-- 4: an error was raised and its record is held. -/
  | error
deriving DecidableEq, Repr

/-- The values ERR_CODE takes (R28, R120); 6 and 7 are never written. -/
inductive ErrCode where
  /-- 0: no error. -/
  | none
  /-- 1: the element is neither '0' nor '1' (R121). -/
  | invalidBit
  /-- 2: the selected child is absent (R122). -/
  | malformed
  /-- 3: FINISH away from the root (R123). -/
  | incomplete
  /-- 4: the accepted word is not Legal (R125). -/
  | illegalCommand
  /-- 5: the command's verdict in this STATE is V (R126). -/
  | stateViolation
deriving DecidableEq, Repr

/-- The input pins at one rising edge of clk (R35). -/
structure PortIn where
  rst      : Bool
  cmdValid : Bool
  cmdData  : Word32
  symReady : Bool
deriving DecidableEq, Repr

/-- What the host does next: it drives one rising edge of clk, or reads one read register (R3, R57). -/
inductive HostStep where
  /-- A rising edge with these pins: reset, at most one command, at most one pop (R36, R37, R140, R152). -/
  | edge (p : PortIn)
  /-- A read of the register at `a` (R112). -/
  | read (a : RdAddr)
deriving DecidableEq, Repr

/-- What the host receives: the symbol of a pop (R110) or the value of a read (R112). -/
inductive HostGot where
  | symbol (s : Symb)
  | data (a : RdAddr) (v : Word32)
deriving DecidableEq, Repr

/-- Node memory: the written entries, index and node word, indices strictly rising and below 512 (R32, R50). An entry that is
not listed has never been written and has no value (R61, log 2). -/
abbrev NodeMem := List (Nat × NodeWord)

/-- The machine. The eleven registers of R22 to R31 and node memory (R32) are the spec's; `fifoDepth` is its open parameter
(R6, log 1); `host` and `received` are the model's own picture of the other agent of R57, the host at the ports (log 3). -/
structure State where
  /-- STATE, 3 bits (R22). -/
  state     : SessState
  /-- CUR, 9 bits, the walk pointer (R23). -/
  cur       : NodeIdx
  /-- ROOT_VALID, 1 bit (R24). -/
  rootValid : Bool
  /-- ROOT_IDX, 9 bits (R24). -/
  rootIdx   : NodeIdx
  /-- NADDR, 9 bits (R25). -/
  naddr     : NodeIdx
  /-- BITPOS, 32 bits (R26). -/
  bitpos    : Word32
  /-- SYMCNT, 32 bits (R27). -/
  symcnt    : Word32
  /-- ERR_CODE, 3 bits (R28). -/
  errCode   : ErrCode
  /-- ERR_POS, 32 bits (R29). -/
  errPos    : Word32
  /-- ERR_DATA, 32 bits (R30). -/
  errData   : Word32
  /-- FIFO, head first (R31). -/
  fifo      : List Symb
  /-- Node memory (R32). -/
  nodeMem   : NodeMem
  /-- FIFO_DEPTH (R6). -/
  fifoDepth : FifoDepth
  /-- What the host will do, next step first. -/
  host      : List HostStep
  /-- What the host has received, oldest first. -/
  received  : List HostGot
deriving DecidableEq, Repr

/-- The faults of the model. -/
inductive Fault where
  /-- A BIT walk or a NODE_RD read reads entry `i`, which has never been written. The spec itself makes this a fault of the
  model (R61, 93_implementation_defined.md U1; log 8). Raised by `execBit` and `readRegister`. Safe: the chip goes on with whatever
  the RAM holds. -/
  | unwrittenNode (i : NodeIdx)
deriving DecidableEq, Repr

/-- The refusals of the model. -/
inductive Refusal where
  /-- `exec`'s arm for an instruction without a meaning; no arm has it. Safe: nothing is claimed of the instruction. -/
  | notModelled (mnemonic : String)
  /-- A BIT put to `execBit` in RUN with FIFO full. HDEC does not accept it: "a held BIT has no step" (R148). Raised by `execBit`
  alone. `step` holds the command off before that (R36), so no step answers it. DEDUCED, log 12, safe. -/
  | commandHeld
deriving DecidableEq, Repr

/-- An answer of the model: a next state, a fault or a refusal. -/
abbrev Answer := Host.Outcome State Fault Refusal

/-- The state after reset of an HDEC with this FIFO_DEPTH: the register values of R40, node memory unwritten (R142, log 7), and a host
that has done nothing and received nothing. -/
def State.resetWith (depth : FifoDepth) : State where
  state     := .idle
  cur       := 0#9
  rootValid := false
  rootIdx   := 0#9
  naddr     := 0#9
  bitpos    := 0#32
  symcnt    := 0#32
  errCode   := .none
  errPos    := 0#32
  errData   := 0#32
  fifo      := []
  nodeMem   := []
  fifoDepth := depth
  host      := []
  received  := []

/-- The machine right after reset (R40, R142); the depth is the model's choice (log 1). -/
def State.reset : State := State.resetWith Config.resetFifoDepth

end Sys2Proof.Machine
end

