-- ==== Sys2Proof/Machine/Operands.lean ====
section
/-!
DEFINITION. Sys2Proof/Machine/Operands.lean: what an element means (spec/00_scope.md R14), the fields of a node word (R10,
spec/30_encoding.md R68), and the layouts of ERR_DATA (spec/60_exceptions.md R120).
-/
namespace Sys2Proof.Machine

/-- BIT0_CODE (R6, R14). -/
def bit0Code : Elem := 0x30#8

/-- BIT1_CODE (R6, R14). -/
def bit1Code : Elem := 0x31#8

/-- `BitOf(e)`: `false` for bit 0, `true` for bit 1, `none` for INVALID (R14). -/
def bitOf (e : Elem) : Option Bool :=
  if e = bit0Code then some false else if e = bit1Code then some true else none

/-- `n.LV`: the left child is present (R10, R68). -/
def nodeLV (n : NodeWord) : Bool := n.getLsbD 27

/-- `n.RV`: the right child is present (R10, R68). -/
def nodeRV (n : NodeWord) : Bool := n.getLsbD 26

/-- `n.LEFT` (R10, R68). -/
def nodeLeft (n : NodeWord) : NodeIdx := n.extractLsb' 17 9

/-- `n.RIGHT` (R10, R68). -/
def nodeRight (n : NodeWord) : NodeIdx := n.extractLsb' 8 9

/-- `n.SYM` (R10, R68). -/
def nodeSym (n : NodeWord) : Symb := n.extractLsb' 0 8

/-- `IsLeaf(n)` (R10): both children are absent, whatever SYM is (90_conflicts.md C3). -/
def isLeaf (n : NodeWord) : Bool := !nodeLV n && !nodeRV n

/-- The child that bit `b` selects, left for '0' and right for '1', if it is present (R100). -/
def nodeChild (n : NodeWord) (b : Bool) : Option NodeIdx :=
  if b then (if nodeRV n then some (nodeRight n) else none)
  else (if nodeLV n then some (nodeLeft n) else none)

/-- The node word of these fields, `{LV, RV, LEFT, RIGHT, SYM}` (R68, R77). -/
def nodeWord (lv rv : Bool) (left right : NodeIdx) (sym : Symb) : NodeWord :=
  BitVec.ofBool lv ++ BitVec.ofBool rv ++ left ++ right ++ sym

/-- ERR_DATA of InvalidBit and Malformed: `{7'b0, CUR[8:0], 8'b0, ELEM[7:0]}` (R120). -/
def elemErrData (cur : NodeIdx) (e : Elem) : Word32 := 0#7 ++ cur ++ 0#8 ++ e

/-- ERR_DATA of Incomplete: `{7'b0, CUR[8:0], 16'b0}` (R120). -/
def finishErrData (cur : NodeIdx) : Word32 := 0#7 ++ cur ++ 0#16

end Sys2Proof.Machine
end

