-- ==== Sys2Proof/Machine/Flags.lean ====
section
/-!
DEFINITION. Sys2Proof/Machine/Flags.lean: HDEC has no condition codes; its flags are derived from registers (spec/10_state.md
R33) and read through STATUS (R39). The numbers STATE and ERR_CODE are read as stand here too (R22, R120).
-/
namespace Sys2Proof.Machine

/-- The value of STATE as software reads it (R22). -/
def SessState.code : SessState → BitVec 3
  | .idle => 0#3
  | .run => 1#3
  | .skip => 2#3
  | .done => 3#3
  | .error => 4#3

/-- The value of ERR_CODE as software reads it (R120). -/
def ErrCode.code : ErrCode → BitVec 3
  | .none => 0#3
  | .invalidBit => 1#3
  | .malformed => 2#3
  | .incomplete => 3#3
  | .illegalCommand => 4#3
  | .stateViolation => 5#3

/-- `FifoCount()` (R11). -/
def fifoCount (s : State) : Nat := s.fifo.length

/-- FIFO_FULL, `FifoFull()`: `FifoCount() == FIFO_DEPTH` (R11, R33). -/
def fifoFull (s : State) : Bool := fifoCount s == s.fifoDepth.val

/-- FIFO_EMPTY: `FifoCount() == 0` (R33). -/
def fifoEmpty (s : State) : Bool := fifoCount s == 0

/-- STATUS: FIFO_COUNT [31:16], reserved 0 [15:9], FIFO_EMPTY [8], FIFO_FULL [7], ERR_CODE [6:4], reserved 0 [3], STATE [2:0]
(R39). A FIFO longer than FIFO_DEPTH is reached by no run (DEDUCED, log 13). -/
def statusWord (s : State) : Word32 :=
  BitVec.ofNat 16 (fifoCount s) ++ 0#7 ++ BitVec.ofBool (fifoEmpty s) ++ BitVec.ofBool (fifoFull s)
    ++ s.errCode.code ++ 0#1 ++ s.state.code

end Sys2Proof.Machine
end

