-- ==== Sys2Proof/Machine/Ops.lean ====
section
/-!
DEFINITION. Sys2Proof/Machine/Ops.lean: the named operations the meanings are written with: node memory (spec/00_scope.md R10,
spec/20_memory.md), FIFO (R11), error entry and what clears it (spec/60_exceptions.md R124, R130), the verdict table and the
dispatch of one command (spec/30_encoding.md R75, R76), and reset (spec/70_reset_and_hazards.md R140).
-/
namespace Sys2Proof.Machine

/-! ### Node memory -/

/-- The word listed at index `i`, or none where the entry has never been written (R61). -/
def memRead (m : NodeMem) (i : NodeIdx) : Option NodeWord :=
  match m with
  | [] => none
  | (k, w) :: rest => if k = i.toNat then some w else memRead rest i

/-- The memory with `w` at index `i`, indices still strictly rising (R10). -/
def memWrite (m : NodeMem) (i : NodeIdx) (w : NodeWord) : NodeMem :=
  match m with
  | [] => [(i.toNat, w)]
  | (k, v) :: rest =>
    if i.toNat < k then (i.toNat, w) :: (k, v) :: rest
    else if k = i.toNat then (k, w) :: rest
    else (k, v) :: memWrite rest i w

/-- The canonical form from index `lo` on: indices strictly rising from at least `lo`, each below 512. -/
def memWfFrom (lo : Nat) : NodeMem → Bool
  | [] => true
  | (k, _) :: rest => decide (lo ≤ k) && decide (k < Config.nNodes) && memWfFrom (k + 1) rest

/-- The canonical form of node memory: equal memories are equal lists. -/
def Memory.wf (m : NodeMem) : Bool := memWfFrom 0 m

/-- `MemWrite(NADDR, 1, w)` followed by `NADDR <- (NADDR + 1) mod 512` (R86). -/
def State.writeNode (s : State) (w : NodeWord) : State :=
  { s with nodeMem := memWrite s.nodeMem s.naddr w, naddr := s.naddr + 1#9 }

/-- `MemRead(i, 1)`, handed to `k`; a read of an unwritten entry is a fault of the model (R61). -/
def withNode (i : NodeIdx) (s : State) (k : NodeWord → Answer) : Answer :=
  match memRead s.nodeMem i with
  | none => .fault (.unwrittenNode i)
  | some n => k n

/-! ### Registers -/

/-- `NADDR <- a` (R85). -/
def State.setNaddr (s : State) (a : NodeIdx) : State := { s with naddr := a }

/-- `ROOT_VALID <- rv; ROOT_IDX <- idx` (R87). -/
def State.setRoot (s : State) (rv : Bool) (idx : NodeIdx) : State := { s with rootValid := rv, rootIdx := idx }

/-- `CUR <- i` (R13). -/
def State.setCur (s : State) (i : NodeIdx) : State := { s with cur := i }

/-- `STATE <- st` (R22). -/
def State.setState (s : State) (st : SessState) : State := { s with state := st }

/-- `BITPOS <- (BITPOS + 1) mod 2^32` (R26, R106). -/
def State.countElement (s : State) : State := { s with bitpos := s.bitpos + 1#32 }

/-- `FifoPush(y)` at the tail, with `SYMCNT <- (SYMCNT + 1) mod 2^32` (R11, R27, R100). -/
def State.pushSymbol (s : State) (y : Symb) : State :=
  { s with fifo := s.fifo ++ [y], symcnt := s.symcnt + 1#32 }

/-- What START and ABORT begin with: `FifoClear()`, the two counters and the error record to 0 (R91, R94). -/
def State.clearSession (s : State) : State :=
  { s with fifo := [], bitpos := 0#32, symcnt := 0#32, errCode := .none, errPos := 0#32, errData := 0#32 }

/-- The host's remaining steps become `h`. -/
def State.setHost (s : State) (h : List HostStep) : State := { s with host := h }

/-- The host receives `g`. -/
def State.receive (s : State) (g : HostGot) : State := { s with received := s.received ++ [g] }

/-- `FifoPop()`, with the symbol going to the host; nothing happens on an empty FIFO (R110). -/
def State.popSymbol (s : State) : State :=
  match s.fifo with
  | [] => s
  | y :: rest => { s with fifo := rest, received := s.received ++ [.symbol y] }

/-! ### Errors and reset -/

/-- Error entry, `raise E(data)`: HDEC's one way of taking an exception. STATE and the error record are written and nothing
else; no handler runs (R124). -/
def State.raise (s : State) (e : ErrCode) (data : Word32) : State :=
  { s with state := .error, errCode := e, errPos := s.bitpos, errData := data }

/-- `CommandError(E, cmd)`: suppressed in ERROR, where the first error wins (R75, R128). -/
def State.commandError (s : State) (e : ErrCode) (cmd : Word32) : State :=
  if s.state = .error then s else s.raise e cmd

/-- A rising edge with rst = 1: every register takes its reset value, node memory keeps its content (R40, R140). -/
def State.applyReset (s : State) : State :=
  { State.resetWith s.fifoDepth with nodeMem := s.nodeMem, host := s.host, received := s.received }

/-! ### Dispatch of one command -/

/-- What the verdict table says of a command in a STATE (R76). -/
inductive Verdict where
  /-- X: the command's rule runs. -/
  | execute
  /-- D: the command is discarded with no state change. -/
  | discard
  /-- V: StateViolation is raised. -/
  | violation
deriving DecidableEq, Repr

/-- `Verdict(opc, STATE)`, the table of R76. -/
def verdict (i : Instr) (st : SessState) : Verdict :=
  match i with
  | .nop => .execute
  | .setaddr _ => .execute
  | .wnode _ => match st with
    | .idle => .execute | .run => .violation | .skip => .violation | .done => .execute | .error => .execute
  | .setroot _ _ => match st with
    | .idle => .execute | .run => .violation | .skip => .violation | .done => .execute | .error => .execute
  | .start => match st with
    | .idle => .execute | .run => .violation | .skip => .violation | .done => .execute | .error => .execute
  | .bit _ => match st with
    | .idle => .violation | .run => .execute | .skip => .execute | .done => .violation | .error => .discard
  | .finish => match st with
    | .idle => .violation | .run => .execute | .skip => .execute | .done => .violation | .error => .discard
  | .abort => .execute

/-- A Legal command under its verdict: `body` is the command's own rule (R75). The command word StateViolation records is the
word of the command itself, which `encode` gives back (DEDUCED, log 10, safe). -/
def guarded (i : Instr) (s : State) (body : Answer) : Answer :=
  match verdict i s.state with
  | .execute => body
  | .discard => .next s
  | .violation => .next (s.commandError .stateViolation (encode i))

end Sys2Proof.Machine
end

