-- ==== Sys2Proof/Machine/BitWalk.lean ====
section
/-!
DEFINITION. Sys2Proof/Machine/BitWalk.lean: the tree walk, BIT (spec/42_bit_walk.md R100). The checks stand in the order of
spec/60_exceptions.md R127.
-/
namespace Sys2Proof.Machine

/-- Arriving at child `i`: at a leaf its symbol is pushed and the walk returns to the root, else the walk stands at `i` (R100). -/
def arriveAt (i : NodeIdx) (s : State) : Answer :=
  withNode i s fun m =>
    .next ((if isLeaf m then (s.pushSymbol (nodeSym m)).setCur s.rootIdx else s.setCur i).countElement)

/-- One descent from CUR by the valid element `e`, whose bit is `b` (R100, R122). -/
def descend (e : Elem) (b : Bool) (s : State) : Answer :=
  withNode s.cur s fun n =>
    match nodeChild n b with
    | none => .next (s.raise .malformed (elemErrData s.cur e))
    | some i => arriveAt i s

/-- BIT in RUN: held while FIFO is full (R148), then the element's value is checked before node memory is read (R121). -/
def walkBit (e : Elem) (s : State) : Answer :=
  if fifoFull s then .refused .commandHeld
  else match bitOf e with
    | none => .next (s.raise .invalidBit (elemErrData s.cur e))
    | some b => descend e b s

/-- BIT (R100): in SKIP the element is counted and not examined. -/
def execBit (elem : Elem) (s : State) : Answer :=
  guarded (.bit elem) s (if s.state = .skip then .next s.countElement else walkBit elem s)

end Sys2Proof.Machine
end

