-- ==== Sys2Proof/Machine/Session.lean ====
section
/-!
DEFINITION. Sys2Proof/Machine/Session.lean: the session commands NOP, START, FINISH and ABORT (spec/41_session.md).
-/
namespace Sys2Proof.Machine

/-- NOP (R90). -/
def execNop (s : State) : Answer :=
  guarded .nop s (.next s)

/-- The STATE a session opens in: RUN with a present root, SKIP with an absent one (R91). -/
def openState (rootValid : Bool) : SessState := if rootValid then .run else .skip

/-- START (R91). -/
def execStart (s : State) : Answer :=
  guarded .start s (.next ((s.clearSession.setCur s.rootIdx).setState (openState s.rootValid)))

/-- FINISH (R93): in SKIP the session is done; in RUN it is done when the walk is back at the root index. -/
def execFinish (s : State) : Answer :=
  guarded .finish s
    (if s.state = .skip ∨ s.cur = s.rootIdx then .next (s.setState .done)
     else .next (s.raise .incomplete (finishErrData s.cur)))

/-- ABORT (R94). -/
def execAbort (s : State) : Answer :=
  guarded .abort s (.next ((s.clearSession.setCur 0#9).setState .idle))

end Sys2Proof.Machine
end

