-- ==== Sys2Proof/Machine/TreeLoad.lean ====
section
/-!
DEFINITION. Sys2Proof/Machine/TreeLoad.lean: the tree-load commands SETADDR, WNODE and SETROOT (spec/40_tree_load.md).
-/
namespace Sys2Proof.Machine

/-- SETADDR (R85). -/
def execSetaddr (addr : NodeIdx) (s : State) : Answer :=
  guarded (.setaddr addr) s (.next (s.setNaddr addr))

/-- WNODE (R86). -/
def execWnode (node : NodeWord) (s : State) : Answer :=
  guarded (.wnode node) s (.next (s.writeNode node))

/-- SETROOT (R87). -/
def execSetroot (rv : Bool) (idx : NodeIdx) (s : State) : Answer :=
  guarded (.setroot rv idx) s (.next (s.setRoot rv idx))

end Sys2Proof.Machine
end

