-- ==== Sys2Proof/Machine/Dispatch.lean ====
section
/-! DEFINITION. Sys2Proof/Machine/Dispatch.lean: one arm per command, each one call of its meaning. -/
namespace Sys2Proof.Machine

def exec (i : Instr) (s : State) : Host.Outcome State Fault Refusal :=
  match i with
  | .nop => Sys2Proof.Machine.execNop s
  | .setaddr addr => Sys2Proof.Machine.execSetaddr addr s
  | .wnode node => Sys2Proof.Machine.execWnode node s
  | .setroot rv idx => Sys2Proof.Machine.execSetroot rv idx s
  | .start => Sys2Proof.Machine.execStart s
  | .bit elem => Sys2Proof.Machine.execBit elem s
  | .finish => Sys2Proof.Machine.execFinish s
  | .abort => Sys2Proof.Machine.execAbort s

end Sys2Proof.Machine
end

