-- ==== Sys2Proof/Machine/Ports.lean ====
section
/-!
DEFINITION. Sys2Proof/Machine/Ports.lean: the ports (spec/10_state.md R35 to R38): when a command is accepted and what accepting
a word does (R36, R75), the symbol port and POP (R37, R110), the read port and READ (R38, R112), and one rising edge of clk
(R114, R140).
-/
namespace Sys2Proof.Machine

/-! ### The command port -/

/-- `Step(cmd)`: what one accepted command word does (R75). Legal comes before the verdict, so a word that is not Legal is
IllegalCommand in every STATE but ERROR (R125, R127). -/
def stepCommand (w : Word32) (s : State) : Answer :=
  match decode w with
  | .error _ => .next (s.commandError .illegalCommand w)
  | .ok i => exec i s

/-- The output-full hold (R148): STATE = RUN, FIFO is full and the presented word's opcode is 0x5. -/
def holds (w : Word32) (s : State) : Bool :=
  s.state == .run && fifoFull s && opcodeOf w == 0x5#4

/-- `cmd_ready` for the presented word (R36, R148). -/
def cmdReady (rst : Bool) (w : Word32) (s : State) : Bool := !rst && !holds w s

/-! ### The symbol port -/

/-- `sym_valid` (R37). -/
def symValid (rst : Bool) (s : State) : Bool := !rst && !fifoEmpty s

/-- `sym_data`: the head of FIFO, 0 when FIFO is empty (R35) and during reset (R141). -/
def symData (rst : Bool) (s : State) : Symb :=
  if rst then 0#8 else match s.fifo with
    | [] => 0#8
    | y :: _ => y

/-! ### The read port -/

/-- `rd_data` (R38, R39); none where NODE_RD reads an entry that has never been written (R61). -/
def rdData (a : RdAddr) (s : State) : Option Word32 :=
  match a.toNat with
  | 0 => some (statusWord s)
  | 1 => some s.errPos
  | 2 => some s.errData
  | 3 => some s.bitpos
  | 4 => some s.symcnt
  | 5 => some (0#22 ++ BitVec.ofBool s.rootValid ++ s.rootIdx)
  | 6 => some (0#23 ++ s.cur)
  | 7 => some (0#23 ++ s.naddr)
  | 8 => (memRead s.nodeMem s.naddr).map fun n => 0#4 ++ n
  | _ => some 0#32

/-- READ: the host receives `rd_data` and nothing else changes (R112, R113; DEDUCED, log 6). -/
def readRegister (a : RdAddr) (s : State) : Answer :=
  match rdData a s with
  | none => .fault (.unwrittenNode s.naddr)
  | some v => .next (s.receive (.data a v))

/-! ### One rising edge -/

/-- The pop of this edge, if there is one (R37, R110). -/
def popEdge (p : PortIn) (s : State) : State :=
  if symValid p.rst s && p.symReady then s.popSymbol else s

/-- A command is accepted at this edge (R36). -/
def accepts (p : PortIn) (s : State) : Bool := p.cmdValid && cmdReady p.rst p.cmdData s

/-- One rising edge of clk. With rst = 1 it is a reset (R140). Else the pop comes first and then the command, cmd_ready being
that of the state before both (R114). -/
def clockEdge (p : PortIn) (s : State) : Answer :=
  if p.rst then .next s.applyReset
  else if accepts p s then stepCommand p.cmdData (popEdge p s)
  else .next (popEdge p s)

/-- What one step of the host does to HDEC. -/
def hostStep (h : HostStep) (s : State) : Answer :=
  match h with
  | .edge p => clockEdge p s
  | .read a => readRegister a s

end Sys2Proof.Machine
end

