-- ==== Sys2Proof/Machine/Step.lean ====
section
/-!
DEFINITION. Sys2Proof/Machine/Step.lean: one step of the machine (spec/00_scope.md R3): the host's next step at the ports. HDEC
fetches nothing (R21); a command arrives on the command port, and the word to run next is the one the host presents next.
-/
namespace Sys2Proof.Machine

/-- One step (log 4). With no step of the host left, HDEC waits and nothing changes (R124, R149; DESIGN CHOICE, log 3). -/
def step (s : State) : Host.Outcome State Fault Refusal :=
  match s.host with
  | [] => .next s
  | h :: rest => hostStep h (s.setHost rest)

/-- A rising edge at which the host presents the word `w` and pops nothing. -/
def presents (w : Word32) : HostStep := .edge ⟨false, true, w, false⟩

/-- `s` with the word in the low `nbits` bits of `w` presented on the command port at the very next step (R36); the host's other
steps come after it. A command is one 32-bit word (R74). How a program comes to run from reset is log 5's matter. -/
def State.withFetchWord (s : State) (nbits w : Nat) : State :=
  s.setHost (presents (BitVec.ofNat 32 (w % 2 ^ nbits)) :: s.host)

end Sys2Proof.Machine
end

