-- ==== Sys2Proof/Machine/Asm.lean ====
section
/-!
DEFINITION. Sys2Proof/Machine/Asm.lean: the assembler syntax and the pseudo-instructions (spec/30_encoding.md R77, R78), and the
disassembler. It is notation beside the machine: no step reads it. A line is a term, a character its code (log 11).
-/
namespace Sys2Proof.Machine

/-- LV or RV and the index field of a child operand; `-` encodes 0 with the index field 0 (R77). -/
def childBits : Option Nat → Bool × NodeIdx
  | none => (false, 0#9)
  | some i => (true, BitVec.ofNat 9 i)

/-- The node word of a WNODE operand list (R77). -/
def NodeArgs.word (n : NodeArgs) : NodeWord :=
  nodeWord (childBits n.left).1 (childBits n.right).1 (childBits n.left).2 (childBits n.right).2 (BitVec.ofNat 8 n.sym)

/-- The element code of a BIT operand: `0` means 0x30 and `1` means 0x31 (R77). -/
def BitArg.elem : BitArg → Elem
  | .zero => bit0Code
  | .one => bit1Code
  | .byte n => BitVec.ofNat 8 n

/-- BITS: one BIT for each character (R78). -/
def bitsWords (cs : List Nat) : List Word32 := cs.map fun c => encode (.bit (BitVec.ofNat 8 c))

/-- The command words of one line (R77, R78). -/
def asmWords : Asm → List Word32
  | .nop => [encode .nop]
  | .setaddr i => [encode (.setaddr (BitVec.ofNat 9 i))]
  | .wnode n => [encode (.wnode (NodeArgs.word n))]
  | .wnodeLeaf y => [encode (.wnode (NodeArgs.word ⟨none, none, y⟩))]
  | .wnodeNode l r => [encode (.wnode (NodeArgs.word ⟨l, r, 0⟩))]
  | .setroot i => [encode (.setroot (childBits i).1 (childBits i).2)]
  | .start => [encode .start]
  | .bit e => [encode (.bit (BitArg.elem e))]
  | .finish => [encode .finish]
  | .abort => [encode .abort]
  | .word w => [BitVec.ofNat 32 w]
  | .loadnode i n => [encode (.setaddr (BitVec.ofNat 9 i)), encode (.wnode (NodeArgs.word n))]
  | .loadtree base ns => encode (.setaddr (BitVec.ofNat 9 base)) :: ns.map fun n => encode (.wnode (NodeArgs.word n))
  | .bits cs => bitsWords cs
  | .decode cs => encode .start :: bitsWords cs ++ [encode .finish]

/-- The words of a line whose operands are in range, and none for any other line. -/
def assemble (a : Asm) : Option (List Word32) := if a.wf then some (asmWords a) else none

/-- The words of a program, line after line. -/
def assembleAll (ls : List Asm) : Option (List Word32) := (ls.mapM assemble).map List.flatten

/-- A child operand of a node word: the index where the child is present. -/
def childArg (present : Bool) (i : NodeIdx) : Option Nat := if present then some i.toNat else none

/-- The assembly line of a Legal command. Where several forms of R77 encode one word, R77 does not say which a disassembler
prints: this one prints BIT with a byte (never `BIT 0` or `BIT 1`) and WNODE with all three operands (never `WNODE LEAF` or
`WNODE NODE`), and no pseudo-instruction of R78 (DESIGN CHOICE, log 9, safe). -/
def asmOfInstr : Instr → Asm
  | .nop => .nop
  | .setaddr a => .setaddr a.toNat
  | .wnode n => .wnode ⟨childArg (nodeLV n) (nodeLeft n), childArg (nodeRV n) (nodeRight n), (nodeSym n).toNat⟩
  | .setroot rv i => .setroot (childArg rv i)
  | .start => .start
  | .bit e => .bit (.byte e.toNat)
  | .finish => .finish
  | .abort => .abort

/-- The disassembler: a word that is not Legal is `.word <w>` (R77). A Legal word with an ignored field that is not 0 is encoded
by no line of `asmOfInstr` (R68, R77) and is printed as `.word` too (DESIGN CHOICE, log 9, safe). -/
def disassemble (w : Word32) : Asm :=
  match decode w with
  | .error _ => .word w.toNat
  | .ok i => if asmWords (asmOfInstr i) = [w] then asmOfInstr i else .word w.toNat

end Sys2Proof.Machine
end

