-- ==== Sys2Proof/Safety.lean ====
section
/-!
DEFINITION. Sys2Proof/Safety.lean: the terms the statements use. What the next step does (accepts a word, pops, resets); the
invariant of spec/10_state.md R41; the words a run accepts; and D0's `decode(bits, root)`, written from the words of
D0 §4.5 that spec/42_bit_walk.md quotes, with what it means that node memory holds its tree.
-/
namespace Sys2Proof.Machine

/-! ### What the next step does -/

/-- The word the next step accepts, if it accepts one (R36). -/
def acceptedWord (s : State) : Option Word32 :=
  match s.host with
  | .edge p :: _ => if accepts p s then some p.cmdData else none
  | _ => none

/-- The next step is a rising edge with rst = 1 (R140). -/
def resetsNext (s : State) : Bool :=
  match s.host with
  | .edge p :: _ => p.rst
  | _ => false

/-- The next step pops the symbol at the head of FIFO (R37). -/
def popsNext (s : State) : Bool :=
  match s.host with
  | .edge p :: _ => symValid p.rst s && p.symReady
  | _ => false

/-- A session is active (R16). -/
def State.active (s : State) : Bool := s.state == .run || s.state == .skip

/-- The command has left `s` by the one error entry (R124): STATE, ERR_CODE, ERR_POS and ERR_DATA are written, all else kept. -/
def State.withError (s : State) (code : ErrCode) (data : Word32) : State :=
  { s with state := .error, errCode := code, errPos := s.bitpos, errData := data }

/-- In `st` no session is active and the machine takes tree-load commands and START: IDLE, DONE or ERROR (R76). -/
def outside (st : SessState) : Prop := st = .idle ∨ st = .done ∨ st = .error

/-- The Legal commands R126 lists with the STATEs in which they raise StateViolation. -/
def violates (i : Instr) (st : SessState) : Prop :=
  match i with
  | .wnode _ => st = .run ∨ st = .skip
  | .setroot _ _ => st = .run ∨ st = .skip
  | .start => st = .run ∨ st = .skip
  | .bit _ => st = .idle ∨ st = .done
  | .finish => st = .idle ∨ st = .done
  | .nop => False
  | .setaddr _ => False
  | .abort => False

/-- Element `e` selects the child of node word `n` that is present at index `i`: LV and LEFT for '0', RV and RIGHT for '1',
by the bit numbers of R68. -/
def selects (e : Elem) (n : NodeWord) (i : NodeIdx) : Prop :=
  (e = 0x30#8 ∧ n.getLsbD 27 = true ∧ i = n.extractLsb' 17 9) ∨ (e = 0x31#8 ∧ n.getLsbD 26 = true ∧ i = n.extractLsb' 8 9)

/-- Element `e` is valid and the child of `n` it selects is absent (R122, R68). -/
def selectsAbsent (e : Elem) (n : NodeWord) : Prop :=
  (e = 0x30#8 ∧ n.getLsbD 27 = false) ∨ (e = 0x31#8 ∧ n.getLsbD 26 = false)

/-- Accepting `w` is an IllegalCommand: error entry with the whole word, and no effect in ERROR (R71, R125, R128). -/
def illegalIn (w : Word32) (s : State) : Prop :=
  (s.state ≠ .error → stepCommand w s = .next (s.withError .illegalCommand w)) ∧
    (s.state = .error → stepCommand w s = .next s)

/-- The symbols among what the host has received, oldest first (R63). -/
def State.gotSymbols (s : State) : List Symb :=
  s.received.filterMap fun g => match g with
    | .symbol y => some y
    | .data _ _ => none

/-! ### The invariant -/

/-- R41, clauses 2 to 5 (clause 1 is the type of STATE), the ERR_POS and ERR_DATA columns of R120's row 0, and the canonical
form of node memory. -/
structure State.Inv (s : State) : Prop where
  errorIffCode : s.errCode ≠ .none ↔ s.state = .error
  noRecord     : s.errCode = .none → s.errPos = 0#32 ∧ s.errData = 0#32
  fifoBound    : s.fifo.length ≤ s.fifoDepth.val
  idleClear    : s.state = .idle → s.bitpos = 0#32 ∧ s.symcnt = 0#32 ∧ s.fifo = [] ∧ s.errCode = .none ∧ s.errPos = 0#32 ∧
                   s.errData = 0#32 ∧ s.cur = 0#9
  skipAtRoot   : s.state = .skip → s.cur = s.rootIdx ∧ s.symcnt = 0#32
  memCanonical : Memory.wf s.nodeMem = true

/-! ### Runs -/

/-- The words the next `n` steps accept, in order (R36, R57). A word that is held, or presented and withdrawn, is not among them
until an edge accepts it. -/
def acceptedWords : Nat → State → List Word32
  | 0, _ => []
  | n + 1, s => (acceptedWord s).toList ++
      match step s with
      | .next t => acceptedWords n t
      | _ => []

/-- `s` with a host that presents START at its next edge, with sym_ready = `pop` there, and then does `hs`. -/
def State.opening (s : State) (pop : Bool) (hs : List HostStep) : State :=
  { s with host := .edge ⟨false, true, encode .start, pop⟩ :: hs }

/-- The host opens a session at `s` and then does `hs`: edges without reset and reads, in any order, no NODE_RD of an entry never
written among them; and the words HDEC accepts are START, one BIT for each element of `bits`, and FINISH (R17, R115). How often
the host pops is left open, and a BIT may be held for any number of edges and be presented again. -/
structure SessionRun (s : State) (pop : Bool) (hs : List HostStep) (bits : List Elem) : Prop where
  closed   : outside s.state
  noReset  : ∀ p, .edge p ∈ hs → p.rst = false
  readable : .read 0x8#4 ∈ hs → ∃ n, memRead s.nodeMem s.naddr = some n
  accepted : acceptedWords (hs.length + 1) (s.opening pop hs) =
               encode .start :: (bits.map (fun e => encode (.bit e)) ++ [encode .finish])

/-! ### D0's decode -/

/-- A Code Node as the decoder sees it (R4, R15, R102): a leaf with its symbol, or a node with one child or two. -/
inductive CodeTree where
  | leaf (sym : Symb)
  | leftOnly (l : CodeTree)
  | rightOnly (r : CodeTree)
  | both (l r : CodeTree)
deriving DecidableEq, Repr

/-- "descend left on '0', right on '1'": the child bit `b` selects, if present. -/
def CodeTree.child : CodeTree → Bool → Option CodeTree
  | .leaf _, _ => none
  | .leftOnly l, b => if b then none else some l
  | .rightOnly r, b => if b then some r else none
  | .both l r, b => if b then some r else some l

/-- The state machine of D0 §4.5 with a present root. `cur` is the current pointer, `none` while it is back at the root. -/
def decodeFrom (root : CodeTree) : Option CodeTree → List Elem → Except ErrCode (List Symb)
  | none, [] => .ok []
  | some _, [] => .error .incomplete
  | cur, e :: es =>
    match bitOf e with
    | none => .error .invalidBit
    | some b =>
      match (cur.getD root).child b with
      | none => .error .malformed
      | some (.leaf y) => (decodeFrom root none es).map (y :: ·)
      | some t => decodeFrom root (some t) es

/-- `decode(bits, root)` (D0 §4.5, R17; DEDUCED, log 14): an absent root gives empty output whatever the bits are. -/
def decodeBits (bits : List Elem) : Option CodeTree → Except ErrCode (List Symb)
  | none => .ok []
  | some root => decodeFrom root none bits

/-- Node memory holds the tree at index `i`, every node of it written (R68, R88, R105). -/
def holdsTree (m : NodeMem) : CodeTree → NodeIdx → Prop
  | .leaf y, i => ∃ n, memRead m i = some n ∧ nodeLV n = false ∧ nodeRV n = false ∧ nodeSym n = y
  | .leftOnly l, i => ∃ n, memRead m i = some n ∧ nodeLV n = true ∧ nodeRV n = false ∧ holdsTree m l (nodeLeft n)
  | .rightOnly r, i => ∃ n, memRead m i = some n ∧ nodeLV n = false ∧ nodeRV n = true ∧ holdsTree m r (nodeRight n)
  | .both l r, i => ∃ n, memRead m i = some n ∧ nodeLV n = true ∧ nodeRV n = true ∧ holdsTree m l (nodeLeft n) ∧
      holdsTree m r (nodeRight n)

/-- ROOT_VALID and ROOT_IDX describe `root` (R17, R24). -/
def rootIs (s : State) : Option CodeTree → Prop
  | none => s.rootValid = false
  | some t => s.rootValid = true ∧ holdsTree s.nodeMem t s.rootIdx

/-- The leaves of a tree, each with its code, the path from this node to it: '0' for left and '1' for right (R105). -/
def CodeTree.codes : CodeTree → List (Symb × List Elem)
  | .leaf y => [(y, [])]
  | .leftOnly l => l.codes.map fun c => (c.1, bit0Code :: c.2)
  | .rightOnly r => r.codes.map fun c => (c.1, bit1Code :: c.2)
  | .both l r => (l.codes.map fun c => (c.1, bit0Code :: c.2)) ++ (r.codes.map fun c => (c.1, bit1Code :: c.2))

/-- Every node is a leaf or has two children: D0 §3's trees but for the single-symbol wrapper (R15, R105). -/
def CodeTree.full : CodeTree → Bool
  | .leaf _ => true
  | .leftOnly _ => false
  | .rightOnly _ => false
  | .both l r => l.full && r.full

/-- The trees of R105: a full binary tree of two leaves or more, or the single-symbol wrapper of R101. -/
def CodeTree.meetsD0 : CodeTree → Bool
  | .leftOnly (.leaf _) => true
  | .both l r => l.full && r.full
  | _ => false

/-- The elements of a message, each symbol with the code of one of its leaves: the codes one after another. -/
def codeElems (msg : List (Symb × List Elem)) : List Elem := msg.flatMap (·.2)

end Sys2Proof.Machine
end

