-- ==== Sys2Proof/Certificates/Slice0/Obligations.lean ====
section
/-!
DEFINITION. Sys2Proof/Certificates/Slice0/Obligations.lean: the statements for the provers. Each docstring names the rule it
formalises. A next state written `{ s with … }` gives every field the instruction writes and, by saying no more, its frame: all
other registers, node memory, FIFO, the host's script and what the host has received are as before.
-/
open Sys2Proof Sys2Proof.Machine

/-! ### Encoding -/

/-- Words written out from spec/30_encoding.md R77 and spec/95_test_vectors.md, one for each command, and three that are none. -/
def Obligations.SampleWordsDecode : Prop :=
  decode 0x00000000#32 = .ok .nop ∧ decode 0x10000005#32 = .ok (.setaddr 5#9) ∧
  decode 0x2C020200#32 = .ok (.wnode 0xC020200#28) ∧ decode 0x30000200#32 = .ok (.setroot true 0#9) ∧
  decode 0x30000000#32 = .ok (.setroot false 0#9) ∧ decode 0x40000000#32 = .ok .start ∧
  decode 0x50000031#32 = .ok (.bit 0x31#8) ∧ decode 0x60000000#32 = .ok .finish ∧ decode 0x70000000#32 = .ok .abort ∧
  decode 0x10000205#32 = .error .reservedPayload ∧ decode 0x50000130#32 = .error .reservedPayload ∧
  decode 0x80000000#32 = .error .reservedOpcode

/-- Decoding the word of a command gives the command back, for every command and every operand value (R66, R67). -/
def Obligations.DecodeOfEncode : Prop :=
  ∀ i : Instr, decode (encode i) = .ok i

/-- A word that decodes is the word of its command: no bit of it is dropped (R67, R71). -/
def Obligations.EncodeOfDecode : Prop :=
  ∀ (w : Word32) (i : Instr), decode w = .ok i → encode i = w

/-- R69: the MATCH and MASK of each row say exactly which words are that command, and the words that are some command are the
Legal ones. -/
def Obligations.WordsMatchTableRows : Prop :=
  ∀ w : Word32,
    (w &&& 0xFFFFFFFF#32 = 0x00000000#32 ↔ decode w = .ok .nop) ∧
    (w &&& 0xFFFFFE00#32 = 0x10000000#32 ↔ ∃ a, decode w = .ok (.setaddr a)) ∧
    (w &&& 0xF0000000#32 = 0x20000000#32 ↔ ∃ n, decode w = .ok (.wnode n)) ∧
    (w &&& 0xFFFFFC00#32 = 0x30000000#32 ↔ ∃ rv i, decode w = .ok (.setroot rv i)) ∧
    (w &&& 0xFFFFFFFF#32 = 0x40000000#32 ↔ decode w = .ok .start) ∧
    (w &&& 0xFFFFFF00#32 = 0x50000000#32 ↔ ∃ e, decode w = .ok (.bit e)) ∧
    (w &&& 0xFFFFFFFF#32 = 0x60000000#32 ↔ decode w = .ok .finish) ∧
    (w &&& 0xFFFFFFFF#32 = 0x70000000#32 ↔ decode w = .ok .abort) ∧
    (wordLegal w = true ↔ ∃ i, decode w = .ok i)

/-- R71, R72, R125: a reserved opcode or a reserved payload bit makes a word not Legal; accepting such a word raises
IllegalCommand with the whole word in ERR_DATA in every STATE but ERROR, where it has no effect. -/
def Obligations.ReservedWordsRaiseIllegalCommand : Prop :=
  ∀ (w : Word32) (s : State),
    (8 ≤ (w.extractLsb' 28 4).toNat → wordLegal w = false) ∧
    ((w.extractLsb' 28 4).toNat ≤ 7 → w &&& reservedMask (w.extractLsb' 28 4) ≠ 0#32 → wordLegal w = false) ∧
    (wordLegal w = false →
      (s.state ≠ .error → stepCommand w s = .next (s.withError .illegalCommand w)) ∧
      (s.state = .error → stepCommand w s = .next s))

/-- The words the assembler forms of R77 encode, for operands in range; lines are terms and characters are their codes (log 11),
and the disassembler prints a word that is not Legal as `.word`. -/
def Obligations.AssemblerEncodesEachForm : Prop :=
  assemble .nop = some [0x00000000#32] ∧
  (∀ i < 512, assemble (.setaddr i) = some [0x10000000#32 ||| BitVec.ofNat 32 i]) ∧
  (∀ l r y, l < 512 → r < 512 → y < 256 →
    assemble (.wnode ⟨some l, some r, y⟩) = some [0x2C000000#32 ||| BitVec.ofNat 32 (l * 2 ^ 17 + r * 2 ^ 8 + y)] ∧
    assemble (.wnode ⟨some l, none, y⟩) = some [0x28000000#32 ||| BitVec.ofNat 32 (l * 2 ^ 17 + y)] ∧
    assemble (.wnode ⟨none, some r, y⟩) = some [0x24000000#32 ||| BitVec.ofNat 32 (r * 2 ^ 8 + y)] ∧
    assemble (.wnode ⟨none, none, y⟩) = some [0x20000000#32 ||| BitVec.ofNat 32 y]) ∧
  (∀ y, assemble (.wnodeLeaf y) = assemble (.wnode ⟨none, none, y⟩)) ∧
  (∀ l r, assemble (.wnodeNode l r) = assemble (.wnode ⟨l, r, 0⟩)) ∧
  (∀ i < 512, assemble (.setroot (some i)) = some [0x30000200#32 ||| BitVec.ofNat 32 i]) ∧
  assemble (.setroot none) = some [0x30000000#32] ∧
  assemble .start = some [0x40000000#32] ∧
  (∀ e < 256, assemble (.bit (.byte e)) = some [0x50000000#32 ||| BitVec.ofNat 32 e]) ∧
  assemble (.bit .zero) = some [0x50000030#32] ∧ assemble (.bit .one) = some [0x50000031#32] ∧
  assemble .finish = some [0x60000000#32] ∧ assemble .abort = some [0x70000000#32] ∧
  (∀ w < 2 ^ 32, assemble (.word w) = some [BitVec.ofNat 32 w]) ∧
  (∀ w : Word32, wordLegal w = false → disassemble w = .word w.toNat)

/-- R78: the pseudo-instructions are their expansions, and LOADTREE, run outside a session, puts node j at index base + j modulo
512 and writes no other entry. -/
def Obligations.PseudoInstructionsExpand : Prop :=
  (∀ i n, assemble (.loadnode i n) = assembleAll [.setaddr i, .wnode n]) ∧
  (∀ base ns, assemble (.loadtree base ns) = assembleAll (.setaddr base :: ns.map .wnode)) ∧
  (∀ cs, assemble (.bits cs) = assembleAll (cs.map fun c => .bit (.byte c))) ∧
  (∀ cs, assemble (.decode cs) = assembleAll [.start, .bits cs, .finish]) ∧
  (∀ (s : State) (base : Nat) (ns : List NodeArgs) (ws : List Word32), outside s.state → ns.length ≤ 512 →
    assemble (.loadtree base ns) = some ws →
      ∃ t, core.run ws.length { s with host := ws.map presents } = .next t ∧ t.host = [] ∧ t.state = s.state ∧
        t.naddr.toNat = (base + ns.length) % 512 ∧
        (∀ j (h : j < ns.length), memRead t.nodeMem (BitVec.ofNat 9 ((base + j) % 512)) = some (NodeArgs.word ns[j])) ∧
        ∀ i : NodeIdx, (∀ j < ns.length, i.toNat ≠ (base + j) % 512) → memRead t.nodeMem i = memRead s.nodeMem i)

/-- The line each word disassembles to: a Legal word whose ignored fields are 0 as its own form of R77, any other word as
`.word`; and the line assembles to the word. That WNODE prints all three operands, that BIT prints a byte, and that a Legal word
with an ignored field that is not 0 prints as `.word` is the model's choice (log 9). -/
def Obligations.DisassembleEachForm : Prop :=
  disassemble (encode .nop) = .nop ∧
  (∀ a : NodeIdx, disassemble (encode (.setaddr a)) = .setaddr a.toNat) ∧
  (∀ n : NodeWord,
    ((n.getLsbD 27 = false → n.extractLsb' 17 9 = 0#9) ∧ (n.getLsbD 26 = false → n.extractLsb' 8 9 = 0#9) →
      disassemble (encode (.wnode n)) = .wnode
        ⟨if n.getLsbD 27 = true then some (n.extractLsb' 17 9).toNat else none,
          if n.getLsbD 26 = true then some (n.extractLsb' 8 9).toNat else none, (n.extractLsb' 0 8).toNat⟩) ∧
    ((n.getLsbD 27 = false ∧ n.extractLsb' 17 9 ≠ 0#9) ∨ (n.getLsbD 26 = false ∧ n.extractLsb' 8 9 ≠ 0#9) →
      disassemble (encode (.wnode n)) = .word (encode (.wnode n)).toNat)) ∧
  (∀ i : NodeIdx, disassemble (encode (.setroot true i)) = .setroot (some i.toNat)) ∧
  disassemble (encode (.setroot false 0#9)) = .setroot none ∧
  (∀ i : NodeIdx, i ≠ 0#9 → disassemble (encode (.setroot false i)) = .word (encode (.setroot false i)).toNat) ∧
  disassemble (encode .start) = .start ∧
  (∀ e : Elem, disassemble (encode (.bit e)) = .bit (.byte e.toNat)) ∧
  disassemble (encode .finish) = .finish ∧ disassemble (encode .abort) = .abort ∧
  (∀ w : Word32, wordLegal w = false → disassemble w = .word w.toNat) ∧
  (∀ w : Word32, assemble (disassemble w) = some [w])

/-! ### A step of the machine -/

/-- A step at which a decodable word is accepted is `exec` of its command, after the pop of the same edge, if any. The second
clause is about `withFetchWord`, which is the model's choice (log 5): it presents its word with rst = 0 and sym_ready = 0 at the
very next step, and that step runs it. -/
def Obligations.StepRunsDecodedCommand : Prop :=
  (∀ (s : State) (p : PortIn) (rest : List HostStep) (i : Instr),
    s.host = .edge p :: rest → accepts p s = true → decode p.cmdData = .ok i →
      step s = exec i (if p.symReady = true then (s.setHost rest).popSymbol else s.setHost rest)) ∧
  (∀ (s : State) (w : Word32) (i : Instr), decode w = .ok i → cmdReady false w s = true →
      step (s.withFetchWord 32 w.toNat) = exec i s)

/-- The hold of R148: cmd_ready; what an edge that presents a held BIT does; what lifts the hold; and what does not, accepted NOP
and SETADDR among it. R148 says that a held BIT has no step; that `exec` answers a refusal for one, the last clause, is the model's
reading (log 12, DEDUCED). -/
def Obligations.FullFifoHoldsBit : Prop :=
  (∀ (rst : Bool) (w : Word32) (s : State), cmdReady rst w s = true ↔
    rst = false ∧ ¬ (s.state = .run ∧ s.fifo.length = s.fifoDepth.val ∧ w.extractLsb' 28 4 = 0x5#4)) ∧
  (∀ (s : State) (p : PortIn) (rest : List HostStep),
    s.host = .edge p :: rest → p.rst = false → cmdReady false p.cmdData s = false →
      step s = .next (if p.symReady = true then (s.setHost rest).popSymbol else s.setHost rest)) ∧
  (∀ (w : Word32) (s : State), cmdReady false w s = false →
    cmdReady false w s.popSymbol = true ∧ cmdReady false w s.applyReset = true) ∧
  (∀ (w : Word32) (s t : State), cmdReady false w s = false →
    acceptedWord s = none ∨ acceptedWord s = some (encode .nop) ∨ (∃ a, acceptedWord s = some (encode (.setaddr a))) →
    popsNext s = false → resetsNext s = false → step s = .next t → cmdReady false w t = false) ∧
  (∀ (e : Elem) (s : State), s.state = .run → s.fifo.length = s.fifoDepth.val → exec (.bit e) s = .refused .commandHeld)

/-- R37, R110: sym_valid; sym_data on an empty FIFO (R35); what an edge with sym_ready does with and without a symbol to take,
before the command accepted at the same edge, if any; and that a pop lifts the hold. -/
def Obligations.PopDeliversHead : Prop :=
  (∀ (rst : Bool) (s : State), symValid rst s = true ↔ rst = false ∧ s.fifo ≠ []) ∧
  (∀ s : State, s.fifo = [] → symData false s = 0#8) ∧
  (∀ (s : State) (p : PortIn) (rest : List HostStep),
    s.host = .edge p :: rest → p.rst = false → p.symReady = true →
      (∀ y ys, s.fifo = y :: ys → symData false s = y ∧
        step s = if accepts p s = true
          then stepCommand p.cmdData { s with fifo := ys, received := s.received ++ [.symbol y], host := rest }
          else .next { s with fifo := ys, received := s.received ++ [.symbol y], host := rest }) ∧
      (s.fifo = [] → step s = if accepts p s = true then stepCommand p.cmdData { s with host := rest }
        else .next { s with host := rest })) ∧
  (∀ (w : Word32) (s : State), cmdReady false w s = false → cmdReady false w s.popSymbol = true)

/-- R114: a pop and an accepted command at one edge are the pop and then the command; the command first would leave the same
registers, FIFO and node memory; and a BIT held because FIFO is full is not accepted at the edge that pops. The premise on FIFO
is clause 3 of R41, which every step keeps. -/
def Obligations.SameEdgePopThenCommand : Prop :=
  (∀ (s : State) (p : PortIn) (rest : List HostStep),
    s.host = .edge p :: rest → accepts p s = true → p.symReady = true → s.fifo.length ≤ s.fifoDepth.val →
      (∃ t, step { s with host := .edge { p with cmdValid := false } :: .edge { p with symReady := false } :: rest } = .next t ∧
        step s = step t) ∧
      (∀ a b, s.fifo ≠ [] → stepCommand p.cmdData { s with host := rest } = .next a → step s = .next b →
        { a.popSymbol with received := [] } = { b with received := [] })) ∧
  (∀ (s : State) (p : PortIn) (rest : List HostStep) (e : Elem) (y : Symb) (ys : List Symb),
    s.host = .edge p :: rest → p.rst = false → p.symReady = true → p.cmdData = encode (.bit e) → s.state = .run →
    s.fifo.length = s.fifoDepth.val → s.fifo = y :: ys →
      step s = .next { s with fifo := ys, received := s.received ++ [.symbol y], host := rest })

/-- R38: the read-register map, and that a read gives the host the value and changes nothing else. -/
def Obligations.ReadRegisterMap : Prop :=
  ∀ s : State,
    rdData 0x0#4 s = some (statusWord s) ∧ rdData 0x1#4 s = some s.errPos ∧ rdData 0x2#4 s = some s.errData ∧
    rdData 0x3#4 s = some s.bitpos ∧ rdData 0x4#4 s = some s.symcnt ∧
    (∃ v, rdData 0x5#4 s = some v ∧ v.extractLsb' 10 22 = 0#22 ∧ v.getLsbD 9 = s.rootValid ∧ v.extractLsb' 0 9 = s.rootIdx) ∧
    (∃ v, rdData 0x6#4 s = some v ∧ v.extractLsb' 9 23 = 0#23 ∧ v.extractLsb' 0 9 = s.cur) ∧
    (∃ v, rdData 0x7#4 s = some v ∧ v.extractLsb' 9 23 = 0#23 ∧ v.extractLsb' 0 9 = s.naddr) ∧
    (∀ n, memRead s.nodeMem s.naddr = some n →
      ∃ v, rdData 0x8#4 s = some v ∧ v.extractLsb' 28 4 = 0#4 ∧ v.extractLsb' 0 28 = n) ∧
    (∀ a : RdAddr, 9 ≤ a.toNat → rdData a s = some 0x00000000#32) ∧
    (∀ a v rest, s.host = .read a :: rest → rdData a s = some v →
      step s = .next { s with received := s.received ++ [.data a v], host := rest })

/-- R39: every field of STATUS with its legal values and its value after reset. The premise on FIFO is clause 3 of R41. -/
def Obligations.StatusLayout : Prop :=
  (∀ s : State,
    (statusWord s).extractLsb' 0 3 = (match s.state with
      | .idle => 0#3 | .run => 1#3 | .skip => 2#3 | .done => 3#3 | .error => 4#3) ∧
    (statusWord s).getLsbD 3 = false ∧
    (statusWord s).extractLsb' 4 3 = (match s.errCode with
      | .none => 0#3 | .invalidBit => 1#3 | .malformed => 2#3 | .incomplete => 3#3 | .illegalCommand => 4#3
      | .stateViolation => 5#3) ∧
    ((statusWord s).getLsbD 7 = true ↔ s.fifo.length = s.fifoDepth.val) ∧
    ((statusWord s).getLsbD 8 = true ↔ s.fifo = []) ∧
    (statusWord s).extractLsb' 9 7 = 0#7 ∧
    (s.fifo.length ≤ s.fifoDepth.val → ((statusWord s).extractLsb' 16 16).toNat = s.fifo.length)) ∧
  (∀ d : FifoDepth, statusWord (State.resetWith d) = 0x00000100#32)

/-- A word that WNODE writes outside a session is what NODE_RD gives back after SETADDR to its index (R58, R113). -/
def Obligations.WrittenNodeReadsBack : Prop :=
  ∀ (s : State) (n : NodeWord), outside s.state →
    ∃ t, core.run 3 { s with host := [presents (encode (.wnode n)), presents (encode (.setaddr s.naddr)), .read 0x8#4] }
        = .next t ∧
      t.received = s.received ++ [.data 0x8#4 (n.setWidth 32)]

/-! ### Reset -/

/-- R140: an edge with rst = 1 puts every register at its reset value whatever the state and the pins are; no command is accepted
and no pop happens; node memory keeps its content. A START after it opens a session in SKIP. -/
def Obligations.ResetEdge : Prop :=
  ∀ (s : State) (p : PortIn) (rest : List HostStep), s.host = .edge p :: rest → p.rst = true →
    accepts p s = false ∧ popsNext s = false ∧
    step s = .next { s with
      state := .idle, cur := 0#9, rootValid := false, rootIdx := 0#9, naddr := 0#9, bitpos := 0#32, symcnt := 0#32,
      errCode := .none, errPos := 0#32, errData := 0#32, fifo := [], host := rest } ∧
    ∀ t, step s = .next t → ∃ u, exec .start t = .next u ∧ u.state = .skip

/-- R141: the ports while rst = 1, and from the first reset edge on. -/
def Obligations.PortsDuringReset : Prop :=
  ∀ (s : State),
    (∀ w, cmdReady true w s = false) ∧ symValid true s = false ∧ symData true s = 0#8 ∧
    rdData 0x0#4 s.applyReset = some 0x00000100#32 ∧
    (∀ a : RdAddr, 1 ≤ a.toNat → a.toNat ≤ 7 → rdData a s.applyReset = some 0#32) ∧
    (∀ w, cmdReady false w s.applyReset = true)

/-! ### Tree load -/

/-- R85: SETADDR in every STATE, its word, and the words of its opcode that are not Legal. -/
def Obligations.SetaddrSetsNodeAddress : Prop :=
  (∀ (a : NodeIdx) (s : State), exec (.setaddr a) s = .next { s with naddr := a }) ∧
  (∀ a : NodeIdx, encode (.setaddr a) = 0x10000000#32 ||| a.setWidth 32) ∧
  (∀ (w : Word32) (s : State), w.extractLsb' 28 4 = 0x1#4 → w.extractLsb' 9 19 ≠ 0#19 → illegalIn w s)

/-- R86: WNODE outside a session stores the node word at NADDR and at no other index, and advances NADDR modulo 512; in a
session it is a StateViolation. Every word of its opcode is Legal. -/
def Obligations.WnodeStoresAtNodeAddress : Prop :=
  (∀ (n : NodeWord) (s : State), outside s.state →
    ∃ m a, exec (.wnode n) s = .next { s with nodeMem := m, naddr := a } ∧
      a.toNat = (s.naddr.toNat + 1) % 512 ∧ memRead m s.naddr = some n ∧
      ∀ j, j ≠ s.naddr → memRead m j = memRead s.nodeMem j) ∧
  (∀ (n : NodeWord) (s : State), s.active = true →
    exec (.wnode n) s = .next (s.withError .stateViolation (encode (.wnode n)))) ∧
  (∀ n : NodeWord, encode (.wnode n) = 0x20000000#32 ||| n.setWidth 32) ∧
  (∀ w : Word32, w.extractLsb' 28 4 = 0x2#4 → wordLegal w = true)

/-- R87: SETROOT. -/
def Obligations.SetrootNamesRoot : Prop :=
  (∀ (rv : Bool) (i : NodeIdx) (s : State), outside s.state →
    exec (.setroot rv i) s = .next { s with rootValid := rv, rootIdx := i }) ∧
  (∀ (rv : Bool) (i : NodeIdx) (s : State), s.active = true →
    exec (.setroot rv i) s = .next (s.withError .stateViolation (encode (.setroot rv i)))) ∧
  (∀ (rv : Bool) (i : NodeIdx),
    encode (.setroot rv i) = 0x30000000#32 ||| (BitVec.ofBool rv).setWidth 32 <<< 9 ||| i.setWidth 32) ∧
  (∀ (w : Word32) (s : State), w.extractLsb' 28 4 = 0x3#4 → w.extractLsb' 10 18 ≠ 0#18 → illegalIn w s)

/-! ### Session control -/

/-- R90: NOP changes nothing in any STATE and is never held. -/
def Obligations.NopChangesNothing : Prop :=
  (∀ s : State, exec .nop s = .next s) ∧ encode .nop = 0x00000000#32 ∧
  (∀ s : State, cmdReady false (encode .nop) s = true) ∧
  (∀ (w : Word32) (s : State), w.extractLsb' 28 4 = 0x0#4 → w.extractLsb' 0 28 ≠ 0#28 → illegalIn w s)

/-- R91: START. -/
def Obligations.StartOpensSession : Prop :=
  (∀ s : State, outside s.state →
    exec .start s = .next { s with
      fifo := [], bitpos := 0#32, symcnt := 0#32, errCode := .none, errPos := 0#32, errData := 0#32, cur := s.rootIdx,
      state := if s.rootValid = true then .run else .skip }) ∧
  (∀ s : State, s.active = true → exec .start s = .next (s.withError .stateViolation 0x40000000#32)) ∧
  encode .start = 0x40000000#32 ∧
  (∀ (w : Word32) (s : State), w.extractLsb' 28 4 = 0x4#4 → w.extractLsb' 0 28 ≠ 0#28 → illegalIn w s)

/-- R93: FINISH. -/
def Obligations.FinishClosesSession : Prop :=
  (∀ s : State, s.state = .skip → exec .finish s = .next { s with state := .done }) ∧
  (∀ s : State, s.state = .run → s.cur = s.rootIdx → exec .finish s = .next { s with state := .done }) ∧
  (∀ s : State, s.state = .run → s.cur ≠ s.rootIdx →
    exec .finish s = .next (s.withError .incomplete (0#7 ++ s.cur ++ 0#16))) ∧
  (∀ s : State, s.state = .error → exec .finish s = .next s) ∧
  (∀ s : State, s.state = .idle ∨ s.state = .done → exec .finish s = .next (s.withError .stateViolation 0x60000000#32)) ∧
  encode .finish = 0x60000000#32 ∧
  (∀ (w : Word32) (s : State), w.extractLsb' 28 4 = 0x6#4 → w.extractLsb' 0 28 ≠ 0#28 → illegalIn w s)

/-- R94: ABORT in every STATE; it keeps node memory, NADDR and the root, and is never held. -/
def Obligations.AbortReturnsToIdle : Prop :=
  (∀ s : State,
    exec .abort s = .next { s with
      fifo := [], bitpos := 0#32, symcnt := 0#32, errCode := .none, errPos := 0#32, errData := 0#32, cur := 0#9,
      state := .idle }) ∧
  encode .abort = 0x70000000#32 ∧ (∀ s : State, cmdReady false (encode .abort) s = true) ∧
  (∀ (w : Word32) (s : State), w.extractLsb' 28 4 = 0x7#4 → w.extractLsb' 0 28 ≠ 0#28 → illegalIn w s)

/-! ### The tree walk -/

/-- A BIT in RUN that is not held and reaches a leaf pushes the leaf's symbol, counts it and the element, and returns the walk
to the root. It stores nothing: node memory is as before. -/
def Obligations.BitEmitsSymbolAtLeaf : Prop :=
  ∀ (s : State) (e : Elem) (n m : NodeWord) (i : NodeIdx),
    s.state = .run → s.fifo.length ≠ s.fifoDepth.val → memRead s.nodeMem s.cur = some n → selects e n i →
    memRead s.nodeMem i = some m → m.getLsbD 27 = false → m.getLsbD 26 = false →
      exec (.bit e) s = .next { s with
        fifo := s.fifo ++ [m.extractLsb' 0 8], symcnt := s.symcnt + 1#32, cur := s.rootIdx, bitpos := s.bitpos + 1#32 }

/-- A BIT in RUN that is not held and reaches a node with a child moves the walk there and counts the element. -/
def Obligations.BitDescendsToInnerNode : Prop :=
  ∀ (s : State) (e : Elem) (n m : NodeWord) (i : NodeIdx),
    s.state = .run → s.fifo.length ≠ s.fifoDepth.val → memRead s.nodeMem s.cur = some n → selects e n i →
    memRead s.nodeMem i = some m → m.getLsbD 27 = true ∨ m.getLsbD 26 = true →
      exec (.bit e) s = .next { s with cur := i, bitpos := s.bitpos + 1#32 }

/-- BIT outside RUN: counted and not examined in SKIP, discarded in ERROR, a StateViolation in IDLE and DONE; and its word. -/
def Obligations.BitOutsideRun : Prop :=
  ∀ (s : State) (e : Elem),
    (s.state = .skip → exec (.bit e) s = .next { s with bitpos := s.bitpos + 1#32 }) ∧
    (s.state = .error → exec (.bit e) s = .next s) ∧
    (s.state = .idle ∨ s.state = .done → exec (.bit e) s = .next (s.withError .stateViolation (encode (.bit e)))) ∧
    encode (.bit e) = 0x50000000#32 ||| e.setWidth 32 ∧
    (∀ w : Word32, w.extractLsb' 28 4 = 0x5#4 → w.extractLsb' 8 20 ≠ 0#20 → illegalIn w s)

/-- R121: InvalidBit in RUN, before node memory is read, and never in SKIP. -/
def Obligations.InvalidElementRaisesInvalidBit : Prop :=
  ∀ (s : State) (e : Elem),
    (s.state = .run → s.fifo.length ≠ s.fifoDepth.val → e ≠ 0x30#8 → e ≠ 0x31#8 →
      exec (.bit e) s = .next (s.withError .invalidBit (0#7 ++ s.cur ++ 0#8 ++ e))) ∧
    (s.state = .skip → ∀ t, exec (.bit e) s = .next t → t.state = .skip ∧ t.errCode = s.errCode)

/-- R122: Malformed in RUN, for a valid element whose child is absent; the child's entry need not be written. -/
def Obligations.AbsentChildRaisesMalformed : Prop :=
  ∀ (s : State) (e : Elem) (n : NodeWord),
    s.state = .run → s.fifo.length ≠ s.fifoDepth.val → memRead s.nodeMem s.cur = some n → selectsAbsent e n →
      exec (.bit e) s = .next (s.withError .malformed (0#7 ++ s.cur ++ 0#8 ++ e))

/-- R101: the single-symbol wrapper, a root with its left child only, which is a leaf. -/
def Obligations.SingleSymbolWrapperWalk : Prop :=
  ∀ (s : State) (n m : NodeWord),
    s.state = .run → s.fifo.length ≠ s.fifoDepth.val → s.cur = s.rootIdx →
    memRead s.nodeMem s.rootIdx = some n → n.getLsbD 27 = true → n.getLsbD 26 = false →
    memRead s.nodeMem (n.extractLsb' 17 9) = some m → m.getLsbD 27 = false → m.getLsbD 26 = false →
      exec (.bit 0x30#8) s = .next { s with
        fifo := s.fifo ++ [m.extractLsb' 0 8], symcnt := s.symcnt + 1#32, cur := s.rootIdx, bitpos := s.bitpos + 1#32 } ∧
      exec (.bit 0x31#8) s = .next (s.withError .malformed (0#7 ++ s.rootIdx ++ 0#8 ++ 0x31#8))

/-- R104: the first BIT of a session whose root is a bare leaf raises Malformed, whatever the valid element. -/
def Obligations.BareLeafRootIsMalformed : Prop :=
  ∀ (s t : State) (e : Elem) (n : NodeWord),
    outside s.state → s.rootValid = true → memRead s.nodeMem s.rootIdx = some n →
    n.getLsbD 27 = false → n.getLsbD 26 = false → e = 0x30#8 ∨ e = 0x31#8 → exec .start s = .next t →
      exec (.bit e) t = .next (t.withError .malformed (0#7 ++ s.rootIdx ++ 0#8 ++ e))

/-- R61: every entry is unwritten at power-up; BIT in RUN and NODE_RD fault on an unwritten entry they read; nothing else faults;
an entry keeps its word, across resets too, until a WNODE to its index; and a run that faults ends in that fault. -/
def Obligations.UnwrittenEntryFaults : Prop :=
  (∀ (d : FifoDepth) (i : NodeIdx), memRead (State.resetWith d).nodeMem i = none) ∧
  (∀ (s : State) (e : Elem), s.state = .run → s.fifo.length ≠ s.fifoDepth.val → e = 0x30#8 ∨ e = 0x31#8 →
    memRead s.nodeMem s.cur = none → exec (.bit e) s = .fault (.unwrittenNode s.cur)) ∧
  (∀ (s : State) (e : Elem) (n : NodeWord) (i : NodeIdx), s.state = .run → s.fifo.length ≠ s.fifoDepth.val →
    memRead s.nodeMem s.cur = some n → selects e n i → memRead s.nodeMem i = none →
      exec (.bit e) s = .fault (.unwrittenNode i)) ∧
  (∀ (s : State) (rest : List HostStep), s.host = .read 0x8#4 :: rest → memRead s.nodeMem s.naddr = none →
    step s = .fault (.unwrittenNode s.naddr)) ∧
  (∀ (s : State) (f : Fault), step s = .fault f →
    (∃ rest, s.host = .read 0x8#4 :: rest) ∨ (s.state = .run ∧ ∃ e, acceptedWord s = some (encode (.bit e)))) ∧
  (∀ (s t : State) (j : NodeIdx) (n : NodeWord), step s = .next t → memRead s.nodeMem j = some n →
    memRead t.nodeMem j = some n ∨ (s.naddr = j ∧ ∃ n', acceptedWord s = some (encode (.wnode n')))) ∧
  (∀ (s : State) (f : Fault) (k : Nat), step s = .fault f → core.run (k + 1) s = .fault f)

/-! ### Errors -/

/-- R120: the cause, ERR_POS and ERR_DATA of every error a command can raise. -/
def Obligations.ErrorRecordNamesItsCause : Prop :=
  ∀ (w : Word32) (s t : State), stepCommand w s = .next t → s.state ≠ .error → t.state = .error →
    t.errPos = s.bitpos ∧
    ((t.errCode = .invalidBit ∧ s.state = .run ∧ ∃ e, decode w = .ok (.bit e) ∧ e ≠ 0x30#8 ∧ e ≠ 0x31#8 ∧
        t.errData = 0#7 ++ s.cur ++ 0#8 ++ e) ∨
     (t.errCode = .malformed ∧ s.state = .run ∧ ∃ e n, decode w = .ok (.bit e) ∧ memRead s.nodeMem s.cur = some n ∧
        selectsAbsent e n ∧ t.errData = 0#7 ++ s.cur ++ 0#8 ++ e) ∨
     (t.errCode = .incomplete ∧ s.state = .run ∧ decode w = .ok .finish ∧ s.cur ≠ s.rootIdx ∧
        t.errData = 0#7 ++ s.cur ++ 0#16) ∨
     (t.errCode = .illegalCommand ∧ wordLegal w = false ∧ t.errData = w) ∨
     (t.errCode = .stateViolation ∧ (∃ i, decode w = .ok i ∧ violates i s.state) ∧ t.errData = w))

/-- R123: Incomplete. -/
def Obligations.FinishAwayFromRootIsIncomplete : Prop :=
  ∀ (w : Word32) (s : State), decode w = .ok .finish → s.state = .run → s.cur ≠ s.rootIdx →
    ∃ t, stepCommand w s = .next t ∧ t.state = .error ∧ t.errCode = .incomplete ∧ t.errPos = s.bitpos ∧
      t.errData.extractLsb' 16 9 = s.cur ∧ t.errData.extractLsb' 0 8 = 0#8

/-- R126: a Legal command in a STATE the rule lists is a StateViolation with the whole word in ERR_DATA. -/
def Obligations.WrongStateRaisesStateViolation : Prop :=
  ∀ (w : Word32) (i : Instr) (s : State), decode w = .ok i → violates i s.state →
    stepCommand w s = .next (s.withError .stateViolation w)

/-- R129: a command that raises an error makes error entry and nothing else. -/
def Obligations.ErrorsArePrecise : Prop :=
  ∀ (w : Word32) (s t : State), stepCommand w s = .next t → s.state ≠ .error → t.state = .error →
    ∃ code data, code ≠ ErrCode.none ∧ t = s.withError code data

/-- R128: in ERROR the record stays, but for START, ABORT and reset; BIT, FINISH and words that are not Legal have no effect;
NOP, SETADDR, WNODE and SETROOT take effect and leave the record alone. -/
def Obligations.FirstErrorWins : Prop :=
  (∀ s t : State, s.state = .error → step s = .next t →
    (t.errCode = s.errCode ∧ t.errPos = s.errPos ∧ t.errData = s.errData) ∨
    ((resetsNext s = true ∨ acceptedWord s = some (encode .start) ∨ acceptedWord s = some (encode .abort)) ∧
      t.errCode = .none ∧ t.errPos = 0#32 ∧ t.errData = 0#32)) ∧
  (∀ (w : Word32) (s : State), s.state = .error →
    (decode w = .ok .finish ∨ (∃ e, decode w = .ok (.bit e)) ∨ wordLegal w = false) → stepCommand w s = .next s) ∧
  (∀ s : State, s.state = .error →
    exec .nop s = .next s ∧ (∀ a, exec (.setaddr a) s = .next { s with naddr := a }) ∧
    (∀ n, ∃ m, exec (.wnode n) s = .next { s with nodeMem := m, naddr := s.naddr + 1#9 } ∧ memRead m s.naddr = some n) ∧
    (∀ rv i, exec (.setroot rv i) s = .next { s with rootValid := rv, rootIdx := i }))

/-- R130: STATE leaves ERROR in three ways only, and the tree may be reloaded before it does. -/
def Obligations.LeavingErrorState : Prop :=
  (∀ s t : State, s.state = .error → step s = .next t → t.state ≠ .error →
    t.errCode = .none ∧ t.errPos = 0#32 ∧ t.errData = 0#32 ∧
    ((acceptedWord s = some (encode .start) ∧ (t.state = .run ∨ t.state = .skip)) ∨
     (acceptedWord s = some (encode .abort) ∧ t.state = .idle) ∨
     (resetsNext s = true ∧ t.state = .idle))) ∧
  (∀ s : State, s.state = .error →
    (∀ a, ∃ t, exec (.setaddr a) s = .next t ∧ t.state = .error ∧ t.naddr = a) ∧
    (∀ n, ∃ t, exec (.wnode n) s = .next t ∧ t.state = .error ∧ memRead t.nodeMem s.naddr = some n) ∧
    (∀ rv i, ∃ t, exec (.setroot rv i) s = .next t ∧ t.state = .error ∧ t.rootValid = rv ∧ t.rootIdx = i))

/-! ### Who writes what -/

/-- R22: what writes STATE. -/
def Obligations.OnlyListedRulesWriteState : Prop :=
  ∀ s t : State, step s = .next t → t.state ≠ s.state →
    (resetsNext s = true ∧ t.state = .idle) ∨
    (acceptedWord s = some (encode .start) ∧ (t.state = .run ∨ t.state = .skip)) ∨
    (acceptedWord s = some (encode .finish) ∧ t.state = .done) ∨
    (acceptedWord s = some (encode .abort) ∧ t.state = .idle) ∨
    (t.state = .error ∧ t.errCode ≠ .none ∧ t.errPos = s.bitpos)

/-- R23: what writes CUR, and with what. -/
def Obligations.OnlyListedRulesWriteCur : Prop :=
  (∀ s t : State, step s = .next t → t.cur ≠ s.cur →
    (resetsNext s = true ∧ t.cur = 0#9) ∨
    (acceptedWord s = some (encode .start) ∧ t.cur = s.rootIdx) ∨
    (acceptedWord s = some (encode .abort) ∧ t.cur = 0#9) ∨
    (s.state = .run ∧ t.state = .run ∧ ∃ e, acceptedWord s = some (encode (.bit e)) ∧
      (t.cur = s.rootIdx ∨ ∃ n, memRead s.nodeMem s.cur = some n ∧ selects e n t.cur))) ∧
  (∀ d : FifoDepth, (State.resetWith d).cur = 0#9)

/-- R24: only SETROOT and reset write the root; START with an absent root opens a session in SKIP. -/
def Obligations.OnlySetrootAndResetWriteRoot : Prop :=
  (∀ s t : State, step s = .next t →
    (t.rootValid = s.rootValid ∧ t.rootIdx = s.rootIdx) ∨
    (resetsNext s = true ∧ t.rootValid = false ∧ t.rootIdx = 0#9) ∨
    (outside s.state ∧ acceptedWord s = some (encode (.setroot t.rootValid t.rootIdx)))) ∧
  (∀ d : FifoDepth, (State.resetWith d).rootValid = false ∧ (State.resetWith d).rootIdx = 0#9) ∧
  (∀ s t : State, s.rootValid = false → outside s.state → exec .start s = .next t → t.state = .skip)

/-- What writes NADDR, and with what; and the walk does not read it (R25). -/
def Obligations.OnlyListedRulesWriteNaddr : Prop :=
  (∀ s t : State, step s = .next t → t.naddr ≠ s.naddr →
    (resetsNext s = true ∧ t.naddr = 0#9) ∨
    acceptedWord s = some (encode (.setaddr t.naddr)) ∨
    ((∃ n, acceptedWord s = some (encode (.wnode n))) ∧ t.naddr.toNat = (s.naddr.toNat + 1) % 512)) ∧
  (∀ d : FifoDepth, (State.resetWith d).naddr = 0#9) ∧
  (∀ (e : Elem) (s t : State) (a : NodeIdx), exec (.bit e) s = .next t →
    exec (.bit e) { s with naddr := a } = .next { t with naddr := a })

/-- The two counters of R135: a step leaves one as it is, adds 1 modulo 2^32, or clears it, and only START, ABORT and reset
clear; only an accepted BIT adds (R26, R27, R106). -/
def Obligations.CountersCountUpOrClear : Prop :=
  ∀ s t : State, step s = .next t →
    (t.bitpos = s.bitpos ∧ t.symcnt = s.symcnt) ∨
    (t.bitpos = s.bitpos + 1#32 ∧ (t.symcnt = s.symcnt ∨ t.symcnt = s.symcnt + 1#32) ∧ s.active = true ∧
      ∃ e, acceptedWord s = some (encode (.bit e))) ∨
    (t.bitpos = 0#32 ∧ t.symcnt = 0#32 ∧
      (resetsNext s = true ∨ acceptedWord s = some (encode .start) ∨ acceptedWord s = some (encode .abort)))

/-- One BIT makes at most one push, and SYMCNT stays at most BITPOS until BITPOS wraps (R103). -/
def Obligations.AtMostOneSymbolPerElement : Prop :=
  (∀ (e : Elem) (s t : State), exec (.bit e) s = .next t →
    (t.fifo = s.fifo ∧ t.symcnt = s.symcnt) ∨
    (∃ y, t.fifo = s.fifo ++ [y] ∧ t.symcnt = s.symcnt + 1#32 ∧ t.cur = s.rootIdx)) ∧
  (∀ s t : State, step s = .next t → s.symcnt ≤ s.bitpos → s.bitpos ≠ 0xFFFFFFFF#32 → t.symcnt ≤ t.bitpos)

/-- Symbols reach the host in the order they were pushed, none lost and none twice, unless START, ABORT or reset clears FIFO; and
SYMCNT counts the pushes (R63, R41 clause 6). -/
def Obligations.SymbolsLeaveInOrder : Prop :=
  ∀ s t : State, step s = .next t →
    (∃ ys : List Symb, ys.length ≤ 1 ∧ t.gotSymbols ++ t.fifo = s.gotSymbols ++ s.fifo ++ ys ∧
      t.symcnt = s.symcnt + BitVec.ofNat 32 ys.length) ∨
    (t.fifo = [] ∧ t.symcnt = 0#32 ∧ (∃ k ≤ 1, t.gotSymbols = s.gotSymbols ++ s.fifo.take k) ∧
      (resetsNext s = true ∨ acceptedWord s = some (encode .start) ∨ acceptedWord s = some (encode .abort)))

/-! ### Sessions -/

/-- R95: how a session ends. -/
def Obligations.SessionEndsOnlyByListedEvents : Prop :=
  ∀ s t : State, s.active = true → step s = .next t → t.active = false →
    (acceptedWord s = some (encode .finish) ∧ t.state = .done) ∨
    (t.state = .error ∧ t.errCode ≠ .none) ∨
    (acceptedWord s = some (encode .abort) ∧ t.state = .idle) ∨
    (resetsNext s = true ∧ t.state = .idle)

/-- R150: during a session no step changes the tree; WNODE and SETROOT raise StateViolation. -/
def Obligations.TreeFixedDuringSession : Prop :=
  (∀ s t : State, s.active = true → step s = .next t →
    t.nodeMem = s.nodeMem ∧ ((t.rootValid = s.rootValid ∧ t.rootIdx = s.rootIdx) ∨ resetsNext s = true)) ∧
  (∀ s : State, s.active = true →
    (∀ n, exec (.wnode n) s = .next (s.withError .stateViolation (encode (.wnode n)))) ∧
    (∀ rv i, exec (.setroot rv i) s = .next (s.withError .stateViolation (encode (.setroot rv i)))))

/-- Every command answers a next state, but for a BIT in RUN that is held or that reads an unwritten entry (R149, R61). -/
def Obligations.EveryCommandCompletes : Prop :=
  ∀ (i : Instr) (s : State),
    (∀ e, i = .bit e → s.state = .run → s.fifo.length ≠ s.fifoDepth.val ∧
      (e = 0x30#8 ∨ e = 0x31#8 →
        ∃ n, memRead s.nodeMem s.cur = some n ∧ ∀ j, selects e n j → ∃ m, memRead s.nodeMem j = some m)) →
    ∃ t, exec i s = .next t

/-- The invariant of R41 holds after reset, for every FIFO_DEPTH. -/
def Obligations.ResetStateMeetsInvariant : Prop :=
  ∀ d : FifoDepth, (State.resetWith d).Inv

/-- Every step keeps the invariant of R41. -/
def Obligations.StepKeepsInvariant : Prop :=
  ∀ s t : State, s.Inv → step s = .next t → t.Inv

/-- A session computes D0's `decode(bits, root)` (R17), which is `decodeBits` here (log 14, DEDUCED). The host opens the session,
drives edges without reset and reads registers as it likes, and HDEC accepts one BIT per element and FINISH; a BIT may be held
and presented again. The session ends in DONE with the decoded message, or in ERROR with the code of the error decode raises. A
pop at START's own edge takes a symbol that was in FIFO before it. -/
def Obligations.SessionComputesDecode : Prop :=
  ∀ (s : State) (root : Option CodeTree) (bits : List Elem) (pop : Bool) (hs : List HostStep),
    rootIs s root → SessionRun s pop hs bits →
      ∃ (t : State) (popped : List Symb),
        core.run (hs.length + 1) (s.opening pop hs) = .next t ∧ t.host = [] ∧
        t.gotSymbols = s.gotSymbols ++ s.fifo.take pop.toNat ++ popped ∧
        match decodeBits bits root with
        | .ok msg => t.state = .done ∧ popped ++ t.fifo = msg
        | .error code => t.state = .error ∧ t.errCode = code

/-- R105 on the trees and codes of `CodeTree` (log 14, DEDUCED): on a tree that meets D0 §3 the codes of a message, one after
another, decode to the message; and followed by a non-empty proper prefix of one more code, they end in Incomplete. Edges, pops,
reads and holds are as in SessionComputesDecode. -/
def Obligations.CodesDecodeToTheirMessage : Prop :=
  ∀ (s : State) (root : CodeTree) (msg : List (Symb × List Elem)) (cut : List Elem) (pop : Bool) (hs : List HostStep),
    rootIs s (some root) → root.meetsD0 = true → (∀ c ∈ msg, c ∈ root.codes) →
    (cut = [] ∨ ∃ c ∈ root.codes, cut <+: c.2 ∧ cut ≠ c.2) → SessionRun s pop hs (codeElems msg ++ cut) →
      ∃ (t : State) (popped : List Symb),
        core.run (hs.length + 1) (s.opening pop hs) = .next t ∧ t.host = [] ∧
        t.gotSymbols = s.gotSymbols ++ s.fifo.take pop.toNat ++ popped ∧
        (cut = [] → t.state = .done ∧ popped ++ t.fifo = msg.map (·.1)) ∧
        (cut ≠ [] → t.state = .error ∧ t.errCode = .incomplete)
end

