-- ==== Sys2Proof/Laws/Memory.lean ====
section
/-!
SUPPORT. Sys2Proof/Laws/Memory.lean: node memory. A read after a write to the same index gives the value written, a write leaves
every other index alone, and a write keeps the canonical form (spec/00_scope.md R10, spec/20_memory.md R58).
-/
namespace Sys2Proof.Machine

theorem memRead_memWrite_same (m : NodeMem) (i : NodeIdx) (w : NodeWord) : memRead (memWrite m i w) i = some w := by
  induction m with
  | nil => simp [memWrite, memRead]
  | cons c rest ih =>
    obtain ⟨k, v⟩ := c
    unfold memWrite
    split
    · simp [memRead]
    · split <;> simp_all [memRead]

theorem memRead_memWrite_other (m : NodeMem) {i j : NodeIdx} (w : NodeWord) (h : j ≠ i) :
    memRead (memWrite m i w) j = memRead m j := by
  have hk : i.toNat ≠ j.toNat := fun e => h (BitVec.eq_of_toNat_eq e.symm)
  induction m with
  | nil => simp [memWrite, memRead, hk]
  | cons c rest ih =>
    obtain ⟨k, v⟩ := c
    unfold memWrite
    split
    · simp [memRead, hk]
    · split
      · next e => simp [memRead, e, hk]
      · simp [memRead, ih]

theorem memWfFrom_memWrite (m : NodeMem) (i : NodeIdx) (w : NodeWord) {lo : Nat} (hlo : lo ≤ i.toNat)
    (h : memWfFrom lo m = true) : memWfFrom lo (memWrite m i w) = true := by
  have hi : i.toNat < 512 := i.isLt
  induction m generalizing lo with
  | nil => simpa [memWrite, memWfFrom] using ⟨hlo, hi⟩
  | cons c rest ih =>
    obtain ⟨k, v⟩ := c
    simp only [memWfFrom, Bool.and_eq_true, decide_eq_true_eq, Config.nNodes] at h
    obtain ⟨⟨hk, hk'⟩, hr⟩ := h
    unfold memWrite
    split
    · simp only [memWfFrom, Bool.and_eq_true, decide_eq_true_eq]
      exact ⟨⟨hlo, hi⟩, ⟨by omega, hk'⟩, hr⟩
    · split
      · simp only [memWfFrom, Bool.and_eq_true, decide_eq_true_eq]
        exact ⟨⟨hk, hk'⟩, hr⟩
      · simp only [memWfFrom, Bool.and_eq_true, decide_eq_true_eq]
        exact ⟨⟨hk, hk'⟩, ih (by omega) hr⟩

theorem Memory.wf_memWrite (m : NodeMem) (i : NodeIdx) (w : NodeWord) (h : Memory.wf m = true) :
    Memory.wf (memWrite m i w) = true :=
  memWfFrom_memWrite m i w (Nat.zero_le _) h

theorem memRead_eq_none_of_lt {m : NodeMem} {i : NodeIdx} {lo : Nat} (h : memWfFrom lo m = true) (hi : i.toNat < lo) :
    memRead m i = none := by
  induction m generalizing lo with
  | nil => rfl
  | cons c rest ih =>
    obtain ⟨k, v⟩ := c
    simp only [memWfFrom, Bool.and_eq_true, decide_eq_true_eq, Config.nNodes] at h
    have hne : k ≠ i.toNat := by omega
    simp [memRead, hne, ih h.2 (by omega)]

/-- Canonical memories with the same contents are the same list. -/
theorem mem_eq_of_reads {m n : NodeMem} {lo : Nat} (hm : memWfFrom lo m = true) (hn : memWfFrom lo n = true)
    (h : ∀ i, memRead m i = memRead n i) : m = n := by
  induction m generalizing n lo with
  | nil =>
    cases n with
    | nil => rfl
    | cons c rest =>
      obtain ⟨k, v⟩ := c
      simp only [memWfFrom, Bool.and_eq_true, decide_eq_true_eq, Config.nNodes] at hn
      have := h (BitVec.ofNat 9 k)
      rw [memRead, memRead, if_pos (by simp [BitVec.toNat_ofNat]; omega)] at this
      cases this
  | cons c rest ih =>
    obtain ⟨k, v⟩ := c
    have hm' := hm
    simp only [memWfFrom, Bool.and_eq_true, decide_eq_true_eq, Config.nNodes] at hm
    have hkk : k = (BitVec.ofNat 9 k).toNat := by simp [BitVec.toNat_ofNat]; omega
    cases n with
    | nil =>
      have := h (BitVec.ofNat 9 k)
      rw [memRead, memRead, if_pos hkk] at this
      cases this
    | cons d rest' =>
      obtain ⟨k', v'⟩ := d
      simp only [memWfFrom, Bool.and_eq_true, decide_eq_true_eq, Config.nNodes] at hn
      have hkk' : k' = (BitVec.ofNat 9 k').toNat := by simp [BitVec.toNat_ofNat]; omega
      have e : k = k' := by
        rcases Nat.lt_trichotomy k k' with hlt | he | hgt
        · have := h (BitVec.ofNat 9 k)
          rw [memRead, if_pos hkk, memRead, if_neg (by omega), memRead_eq_none_of_lt hn.2 (by omega)] at this
          cases this
        · exact he
        · have := h (BitVec.ofNat 9 k')
          rw [memRead, if_neg (by omega), memRead, if_pos hkk', memRead_eq_none_of_lt hm.2 (by omega)] at this
          cases this
      subst e
      have hv : v = v' := by
        have := h (BitVec.ofNat 9 k)
        rw [memRead, if_pos hkk, memRead, if_pos hkk] at this
        exact Option.some.inj this
      subst hv
      congr 1
      refine ih hm.2 hn.2 fun i => ?_
      have hi := h i
      by_cases hki : k = i.toNat
      · rw [memRead_eq_none_of_lt hm.2 (by omega), memRead_eq_none_of_lt hn.2 (by omega)]
      · rwa [memRead, if_neg hki, memRead, if_neg hki] at hi

end Sys2Proof.Machine
end

