-- ==== Sys2Proof/Laws/State.lean ====
section
/-!
SUPPORT. Sys2Proof/Laws/State.lean: for every update of State and every field, the field's value after the update. No later
proof unfolds a record update.
-/
namespace Sys2Proof.Machine

variable (s : State)

/-! ### writeNode -/

@[simp] theorem State.writeNode_state (w : NodeWord) : (s.writeNode w).state = s.state := rfl
@[simp] theorem State.writeNode_cur (w : NodeWord) : (s.writeNode w).cur = s.cur := rfl
@[simp] theorem State.writeNode_rootValid (w : NodeWord) : (s.writeNode w).rootValid = s.rootValid := rfl
@[simp] theorem State.writeNode_rootIdx (w : NodeWord) : (s.writeNode w).rootIdx = s.rootIdx := rfl
@[simp] theorem State.writeNode_naddr (w : NodeWord) : (s.writeNode w).naddr = s.naddr + 1#9 := rfl
@[simp] theorem State.writeNode_bitpos (w : NodeWord) : (s.writeNode w).bitpos = s.bitpos := rfl
@[simp] theorem State.writeNode_symcnt (w : NodeWord) : (s.writeNode w).symcnt = s.symcnt := rfl
@[simp] theorem State.writeNode_errCode (w : NodeWord) : (s.writeNode w).errCode = s.errCode := rfl
@[simp] theorem State.writeNode_errPos (w : NodeWord) : (s.writeNode w).errPos = s.errPos := rfl
@[simp] theorem State.writeNode_errData (w : NodeWord) : (s.writeNode w).errData = s.errData := rfl
@[simp] theorem State.writeNode_fifo (w : NodeWord) : (s.writeNode w).fifo = s.fifo := rfl
@[simp] theorem State.writeNode_nodeMem (w : NodeWord) : (s.writeNode w).nodeMem = memWrite s.nodeMem s.naddr w := rfl
@[simp] theorem State.writeNode_fifoDepth (w : NodeWord) : (s.writeNode w).fifoDepth = s.fifoDepth := rfl
@[simp] theorem State.writeNode_host (w : NodeWord) : (s.writeNode w).host = s.host := rfl
@[simp] theorem State.writeNode_received (w : NodeWord) : (s.writeNode w).received = s.received := rfl

/-! ### setNaddr -/

@[simp] theorem State.setNaddr_state (a : NodeIdx) : (s.setNaddr a).state = s.state := rfl
@[simp] theorem State.setNaddr_cur (a : NodeIdx) : (s.setNaddr a).cur = s.cur := rfl
@[simp] theorem State.setNaddr_rootValid (a : NodeIdx) : (s.setNaddr a).rootValid = s.rootValid := rfl
@[simp] theorem State.setNaddr_rootIdx (a : NodeIdx) : (s.setNaddr a).rootIdx = s.rootIdx := rfl
@[simp] theorem State.setNaddr_naddr (a : NodeIdx) : (s.setNaddr a).naddr = a := rfl
@[simp] theorem State.setNaddr_bitpos (a : NodeIdx) : (s.setNaddr a).bitpos = s.bitpos := rfl
@[simp] theorem State.setNaddr_symcnt (a : NodeIdx) : (s.setNaddr a).symcnt = s.symcnt := rfl
@[simp] theorem State.setNaddr_errCode (a : NodeIdx) : (s.setNaddr a).errCode = s.errCode := rfl
@[simp] theorem State.setNaddr_errPos (a : NodeIdx) : (s.setNaddr a).errPos = s.errPos := rfl
@[simp] theorem State.setNaddr_errData (a : NodeIdx) : (s.setNaddr a).errData = s.errData := rfl
@[simp] theorem State.setNaddr_fifo (a : NodeIdx) : (s.setNaddr a).fifo = s.fifo := rfl
@[simp] theorem State.setNaddr_nodeMem (a : NodeIdx) : (s.setNaddr a).nodeMem = s.nodeMem := rfl
@[simp] theorem State.setNaddr_fifoDepth (a : NodeIdx) : (s.setNaddr a).fifoDepth = s.fifoDepth := rfl
@[simp] theorem State.setNaddr_host (a : NodeIdx) : (s.setNaddr a).host = s.host := rfl
@[simp] theorem State.setNaddr_received (a : NodeIdx) : (s.setNaddr a).received = s.received := rfl

/-! ### setRoot -/

@[simp] theorem State.setRoot_state (rv : Bool) (i : NodeIdx) : (s.setRoot rv i).state = s.state := rfl
@[simp] theorem State.setRoot_cur (rv : Bool) (i : NodeIdx) : (s.setRoot rv i).cur = s.cur := rfl
@[simp] theorem State.setRoot_rootValid (rv : Bool) (i : NodeIdx) : (s.setRoot rv i).rootValid = rv := rfl
@[simp] theorem State.setRoot_rootIdx (rv : Bool) (i : NodeIdx) : (s.setRoot rv i).rootIdx = i := rfl
@[simp] theorem State.setRoot_naddr (rv : Bool) (i : NodeIdx) : (s.setRoot rv i).naddr = s.naddr := rfl
@[simp] theorem State.setRoot_bitpos (rv : Bool) (i : NodeIdx) : (s.setRoot rv i).bitpos = s.bitpos := rfl
@[simp] theorem State.setRoot_symcnt (rv : Bool) (i : NodeIdx) : (s.setRoot rv i).symcnt = s.symcnt := rfl
@[simp] theorem State.setRoot_errCode (rv : Bool) (i : NodeIdx) : (s.setRoot rv i).errCode = s.errCode := rfl
@[simp] theorem State.setRoot_errPos (rv : Bool) (i : NodeIdx) : (s.setRoot rv i).errPos = s.errPos := rfl
@[simp] theorem State.setRoot_errData (rv : Bool) (i : NodeIdx) : (s.setRoot rv i).errData = s.errData := rfl
@[simp] theorem State.setRoot_fifo (rv : Bool) (i : NodeIdx) : (s.setRoot rv i).fifo = s.fifo := rfl
@[simp] theorem State.setRoot_nodeMem (rv : Bool) (i : NodeIdx) : (s.setRoot rv i).nodeMem = s.nodeMem := rfl
@[simp] theorem State.setRoot_fifoDepth (rv : Bool) (i : NodeIdx) : (s.setRoot rv i).fifoDepth = s.fifoDepth := rfl
@[simp] theorem State.setRoot_host (rv : Bool) (i : NodeIdx) : (s.setRoot rv i).host = s.host := rfl
@[simp] theorem State.setRoot_received (rv : Bool) (i : NodeIdx) : (s.setRoot rv i).received = s.received := rfl

/-! ### setCur -/

@[simp] theorem State.setCur_state (i : NodeIdx) : (s.setCur i).state = s.state := rfl
@[simp] theorem State.setCur_cur (i : NodeIdx) : (s.setCur i).cur = i := rfl
@[simp] theorem State.setCur_rootValid (i : NodeIdx) : (s.setCur i).rootValid = s.rootValid := rfl
@[simp] theorem State.setCur_rootIdx (i : NodeIdx) : (s.setCur i).rootIdx = s.rootIdx := rfl
@[simp] theorem State.setCur_naddr (i : NodeIdx) : (s.setCur i).naddr = s.naddr := rfl
@[simp] theorem State.setCur_bitpos (i : NodeIdx) : (s.setCur i).bitpos = s.bitpos := rfl
@[simp] theorem State.setCur_symcnt (i : NodeIdx) : (s.setCur i).symcnt = s.symcnt := rfl
@[simp] theorem State.setCur_errCode (i : NodeIdx) : (s.setCur i).errCode = s.errCode := rfl
@[simp] theorem State.setCur_errPos (i : NodeIdx) : (s.setCur i).errPos = s.errPos := rfl
@[simp] theorem State.setCur_errData (i : NodeIdx) : (s.setCur i).errData = s.errData := rfl
@[simp] theorem State.setCur_fifo (i : NodeIdx) : (s.setCur i).fifo = s.fifo := rfl
@[simp] theorem State.setCur_nodeMem (i : NodeIdx) : (s.setCur i).nodeMem = s.nodeMem := rfl
@[simp] theorem State.setCur_fifoDepth (i : NodeIdx) : (s.setCur i).fifoDepth = s.fifoDepth := rfl
@[simp] theorem State.setCur_host (i : NodeIdx) : (s.setCur i).host = s.host := rfl
@[simp] theorem State.setCur_received (i : NodeIdx) : (s.setCur i).received = s.received := rfl

/-! ### setState -/

@[simp] theorem State.setState_state (st : SessState) : (s.setState st).state = st := rfl
@[simp] theorem State.setState_cur (st : SessState) : (s.setState st).cur = s.cur := rfl
@[simp] theorem State.setState_rootValid (st : SessState) : (s.setState st).rootValid = s.rootValid := rfl
@[simp] theorem State.setState_rootIdx (st : SessState) : (s.setState st).rootIdx = s.rootIdx := rfl
@[simp] theorem State.setState_naddr (st : SessState) : (s.setState st).naddr = s.naddr := rfl
@[simp] theorem State.setState_bitpos (st : SessState) : (s.setState st).bitpos = s.bitpos := rfl
@[simp] theorem State.setState_symcnt (st : SessState) : (s.setState st).symcnt = s.symcnt := rfl
@[simp] theorem State.setState_errCode (st : SessState) : (s.setState st).errCode = s.errCode := rfl
@[simp] theorem State.setState_errPos (st : SessState) : (s.setState st).errPos = s.errPos := rfl
@[simp] theorem State.setState_errData (st : SessState) : (s.setState st).errData = s.errData := rfl
@[simp] theorem State.setState_fifo (st : SessState) : (s.setState st).fifo = s.fifo := rfl
@[simp] theorem State.setState_nodeMem (st : SessState) : (s.setState st).nodeMem = s.nodeMem := rfl
@[simp] theorem State.setState_fifoDepth (st : SessState) : (s.setState st).fifoDepth = s.fifoDepth := rfl
@[simp] theorem State.setState_host (st : SessState) : (s.setState st).host = s.host := rfl
@[simp] theorem State.setState_received (st : SessState) : (s.setState st).received = s.received := rfl

/-! ### countElement -/

@[simp] theorem State.countElement_state : (s.countElement).state = s.state := rfl
@[simp] theorem State.countElement_cur : (s.countElement).cur = s.cur := rfl
@[simp] theorem State.countElement_rootValid : (s.countElement).rootValid = s.rootValid := rfl
@[simp] theorem State.countElement_rootIdx : (s.countElement).rootIdx = s.rootIdx := rfl
@[simp] theorem State.countElement_naddr : (s.countElement).naddr = s.naddr := rfl
@[simp] theorem State.countElement_bitpos : (s.countElement).bitpos = s.bitpos + 1#32 := rfl
@[simp] theorem State.countElement_symcnt : (s.countElement).symcnt = s.symcnt := rfl
@[simp] theorem State.countElement_errCode : (s.countElement).errCode = s.errCode := rfl
@[simp] theorem State.countElement_errPos : (s.countElement).errPos = s.errPos := rfl
@[simp] theorem State.countElement_errData : (s.countElement).errData = s.errData := rfl
@[simp] theorem State.countElement_fifo : (s.countElement).fifo = s.fifo := rfl
@[simp] theorem State.countElement_nodeMem : (s.countElement).nodeMem = s.nodeMem := rfl
@[simp] theorem State.countElement_fifoDepth : (s.countElement).fifoDepth = s.fifoDepth := rfl
@[simp] theorem State.countElement_host : (s.countElement).host = s.host := rfl
@[simp] theorem State.countElement_received : (s.countElement).received = s.received := rfl

/-! ### pushSymbol -/

@[simp] theorem State.pushSymbol_state (y : Symb) : (s.pushSymbol y).state = s.state := rfl
@[simp] theorem State.pushSymbol_cur (y : Symb) : (s.pushSymbol y).cur = s.cur := rfl
@[simp] theorem State.pushSymbol_rootValid (y : Symb) : (s.pushSymbol y).rootValid = s.rootValid := rfl
@[simp] theorem State.pushSymbol_rootIdx (y : Symb) : (s.pushSymbol y).rootIdx = s.rootIdx := rfl
@[simp] theorem State.pushSymbol_naddr (y : Symb) : (s.pushSymbol y).naddr = s.naddr := rfl
@[simp] theorem State.pushSymbol_bitpos (y : Symb) : (s.pushSymbol y).bitpos = s.bitpos := rfl
@[simp] theorem State.pushSymbol_symcnt (y : Symb) : (s.pushSymbol y).symcnt = s.symcnt + 1#32 := rfl
@[simp] theorem State.pushSymbol_errCode (y : Symb) : (s.pushSymbol y).errCode = s.errCode := rfl
@[simp] theorem State.pushSymbol_errPos (y : Symb) : (s.pushSymbol y).errPos = s.errPos := rfl
@[simp] theorem State.pushSymbol_errData (y : Symb) : (s.pushSymbol y).errData = s.errData := rfl
@[simp] theorem State.pushSymbol_fifo (y : Symb) : (s.pushSymbol y).fifo = s.fifo ++ [y] := rfl
@[simp] theorem State.pushSymbol_nodeMem (y : Symb) : (s.pushSymbol y).nodeMem = s.nodeMem := rfl
@[simp] theorem State.pushSymbol_fifoDepth (y : Symb) : (s.pushSymbol y).fifoDepth = s.fifoDepth := rfl
@[simp] theorem State.pushSymbol_host (y : Symb) : (s.pushSymbol y).host = s.host := rfl
@[simp] theorem State.pushSymbol_received (y : Symb) : (s.pushSymbol y).received = s.received := rfl

/-! ### clearSession -/

@[simp] theorem State.clearSession_state : (s.clearSession).state = s.state := rfl
@[simp] theorem State.clearSession_cur : (s.clearSession).cur = s.cur := rfl
@[simp] theorem State.clearSession_rootValid : (s.clearSession).rootValid = s.rootValid := rfl
@[simp] theorem State.clearSession_rootIdx : (s.clearSession).rootIdx = s.rootIdx := rfl
@[simp] theorem State.clearSession_naddr : (s.clearSession).naddr = s.naddr := rfl
@[simp] theorem State.clearSession_bitpos : (s.clearSession).bitpos = 0#32 := rfl
@[simp] theorem State.clearSession_symcnt : (s.clearSession).symcnt = 0#32 := rfl
@[simp] theorem State.clearSession_errCode : (s.clearSession).errCode = .none := rfl
@[simp] theorem State.clearSession_errPos : (s.clearSession).errPos = 0#32 := rfl
@[simp] theorem State.clearSession_errData : (s.clearSession).errData = 0#32 := rfl
@[simp] theorem State.clearSession_fifo : (s.clearSession).fifo = [] := rfl
@[simp] theorem State.clearSession_nodeMem : (s.clearSession).nodeMem = s.nodeMem := rfl
@[simp] theorem State.clearSession_fifoDepth : (s.clearSession).fifoDepth = s.fifoDepth := rfl
@[simp] theorem State.clearSession_host : (s.clearSession).host = s.host := rfl
@[simp] theorem State.clearSession_received : (s.clearSession).received = s.received := rfl

/-! ### setHost -/

@[simp] theorem State.setHost_state (h : List HostStep) : (s.setHost h).state = s.state := rfl
@[simp] theorem State.setHost_cur (h : List HostStep) : (s.setHost h).cur = s.cur := rfl
@[simp] theorem State.setHost_rootValid (h : List HostStep) : (s.setHost h).rootValid = s.rootValid := rfl
@[simp] theorem State.setHost_rootIdx (h : List HostStep) : (s.setHost h).rootIdx = s.rootIdx := rfl
@[simp] theorem State.setHost_naddr (h : List HostStep) : (s.setHost h).naddr = s.naddr := rfl
@[simp] theorem State.setHost_bitpos (h : List HostStep) : (s.setHost h).bitpos = s.bitpos := rfl
@[simp] theorem State.setHost_symcnt (h : List HostStep) : (s.setHost h).symcnt = s.symcnt := rfl
@[simp] theorem State.setHost_errCode (h : List HostStep) : (s.setHost h).errCode = s.errCode := rfl
@[simp] theorem State.setHost_errPos (h : List HostStep) : (s.setHost h).errPos = s.errPos := rfl
@[simp] theorem State.setHost_errData (h : List HostStep) : (s.setHost h).errData = s.errData := rfl
@[simp] theorem State.setHost_fifo (h : List HostStep) : (s.setHost h).fifo = s.fifo := rfl
@[simp] theorem State.setHost_nodeMem (h : List HostStep) : (s.setHost h).nodeMem = s.nodeMem := rfl
@[simp] theorem State.setHost_fifoDepth (h : List HostStep) : (s.setHost h).fifoDepth = s.fifoDepth := rfl
@[simp] theorem State.setHost_host (h : List HostStep) : (s.setHost h).host = h := rfl
@[simp] theorem State.setHost_received (h : List HostStep) : (s.setHost h).received = s.received := rfl

/-! ### receive -/

@[simp] theorem State.receive_state (g : HostGot) : (s.receive g).state = s.state := rfl
@[simp] theorem State.receive_cur (g : HostGot) : (s.receive g).cur = s.cur := rfl
@[simp] theorem State.receive_rootValid (g : HostGot) : (s.receive g).rootValid = s.rootValid := rfl
@[simp] theorem State.receive_rootIdx (g : HostGot) : (s.receive g).rootIdx = s.rootIdx := rfl
@[simp] theorem State.receive_naddr (g : HostGot) : (s.receive g).naddr = s.naddr := rfl
@[simp] theorem State.receive_bitpos (g : HostGot) : (s.receive g).bitpos = s.bitpos := rfl
@[simp] theorem State.receive_symcnt (g : HostGot) : (s.receive g).symcnt = s.symcnt := rfl
@[simp] theorem State.receive_errCode (g : HostGot) : (s.receive g).errCode = s.errCode := rfl
@[simp] theorem State.receive_errPos (g : HostGot) : (s.receive g).errPos = s.errPos := rfl
@[simp] theorem State.receive_errData (g : HostGot) : (s.receive g).errData = s.errData := rfl
@[simp] theorem State.receive_fifo (g : HostGot) : (s.receive g).fifo = s.fifo := rfl
@[simp] theorem State.receive_nodeMem (g : HostGot) : (s.receive g).nodeMem = s.nodeMem := rfl
@[simp] theorem State.receive_fifoDepth (g : HostGot) : (s.receive g).fifoDepth = s.fifoDepth := rfl
@[simp] theorem State.receive_host (g : HostGot) : (s.receive g).host = s.host := rfl
@[simp] theorem State.receive_received (g : HostGot) : (s.receive g).received = s.received ++ [g] := rfl

/-! ### raise -/

@[simp] theorem State.raise_state (e : ErrCode) (d : Word32) : (s.raise e d).state = .error := rfl
@[simp] theorem State.raise_cur (e : ErrCode) (d : Word32) : (s.raise e d).cur = s.cur := rfl
@[simp] theorem State.raise_rootValid (e : ErrCode) (d : Word32) : (s.raise e d).rootValid = s.rootValid := rfl
@[simp] theorem State.raise_rootIdx (e : ErrCode) (d : Word32) : (s.raise e d).rootIdx = s.rootIdx := rfl
@[simp] theorem State.raise_naddr (e : ErrCode) (d : Word32) : (s.raise e d).naddr = s.naddr := rfl
@[simp] theorem State.raise_bitpos (e : ErrCode) (d : Word32) : (s.raise e d).bitpos = s.bitpos := rfl
@[simp] theorem State.raise_symcnt (e : ErrCode) (d : Word32) : (s.raise e d).symcnt = s.symcnt := rfl
@[simp] theorem State.raise_errCode (e : ErrCode) (d : Word32) : (s.raise e d).errCode = e := rfl
@[simp] theorem State.raise_errPos (e : ErrCode) (d : Word32) : (s.raise e d).errPos = s.bitpos := rfl
@[simp] theorem State.raise_errData (e : ErrCode) (d : Word32) : (s.raise e d).errData = d := rfl
@[simp] theorem State.raise_fifo (e : ErrCode) (d : Word32) : (s.raise e d).fifo = s.fifo := rfl
@[simp] theorem State.raise_nodeMem (e : ErrCode) (d : Word32) : (s.raise e d).nodeMem = s.nodeMem := rfl
@[simp] theorem State.raise_fifoDepth (e : ErrCode) (d : Word32) : (s.raise e d).fifoDepth = s.fifoDepth := rfl
@[simp] theorem State.raise_host (e : ErrCode) (d : Word32) : (s.raise e d).host = s.host := rfl
@[simp] theorem State.raise_received (e : ErrCode) (d : Word32) : (s.raise e d).received = s.received := rfl

/-! ### withError -/

@[simp] theorem State.withError_state (e : ErrCode) (d : Word32) : (s.withError e d).state = .error := rfl
@[simp] theorem State.withError_cur (e : ErrCode) (d : Word32) : (s.withError e d).cur = s.cur := rfl
@[simp] theorem State.withError_rootValid (e : ErrCode) (d : Word32) : (s.withError e d).rootValid = s.rootValid := rfl
@[simp] theorem State.withError_rootIdx (e : ErrCode) (d : Word32) : (s.withError e d).rootIdx = s.rootIdx := rfl
@[simp] theorem State.withError_naddr (e : ErrCode) (d : Word32) : (s.withError e d).naddr = s.naddr := rfl
@[simp] theorem State.withError_bitpos (e : ErrCode) (d : Word32) : (s.withError e d).bitpos = s.bitpos := rfl
@[simp] theorem State.withError_symcnt (e : ErrCode) (d : Word32) : (s.withError e d).symcnt = s.symcnt := rfl
@[simp] theorem State.withError_errCode (e : ErrCode) (d : Word32) : (s.withError e d).errCode = e := rfl
@[simp] theorem State.withError_errPos (e : ErrCode) (d : Word32) : (s.withError e d).errPos = s.bitpos := rfl
@[simp] theorem State.withError_errData (e : ErrCode) (d : Word32) : (s.withError e d).errData = d := rfl
@[simp] theorem State.withError_fifo (e : ErrCode) (d : Word32) : (s.withError e d).fifo = s.fifo := rfl
@[simp] theorem State.withError_nodeMem (e : ErrCode) (d : Word32) : (s.withError e d).nodeMem = s.nodeMem := rfl
@[simp] theorem State.withError_fifoDepth (e : ErrCode) (d : Word32) : (s.withError e d).fifoDepth = s.fifoDepth := rfl
@[simp] theorem State.withError_host (e : ErrCode) (d : Word32) : (s.withError e d).host = s.host := rfl
@[simp] theorem State.withError_received (e : ErrCode) (d : Word32) : (s.withError e d).received = s.received := rfl

/-! ### applyReset -/

@[simp] theorem State.applyReset_state : (s.applyReset).state = .idle := rfl
@[simp] theorem State.applyReset_cur : (s.applyReset).cur = 0#9 := rfl
@[simp] theorem State.applyReset_rootValid : (s.applyReset).rootValid = false := rfl
@[simp] theorem State.applyReset_rootIdx : (s.applyReset).rootIdx = 0#9 := rfl
@[simp] theorem State.applyReset_naddr : (s.applyReset).naddr = 0#9 := rfl
@[simp] theorem State.applyReset_bitpos : (s.applyReset).bitpos = 0#32 := rfl
@[simp] theorem State.applyReset_symcnt : (s.applyReset).symcnt = 0#32 := rfl
@[simp] theorem State.applyReset_errCode : (s.applyReset).errCode = .none := rfl
@[simp] theorem State.applyReset_errPos : (s.applyReset).errPos = 0#32 := rfl
@[simp] theorem State.applyReset_errData : (s.applyReset).errData = 0#32 := rfl
@[simp] theorem State.applyReset_fifo : (s.applyReset).fifo = [] := rfl
@[simp] theorem State.applyReset_nodeMem : (s.applyReset).nodeMem = s.nodeMem := rfl
@[simp] theorem State.applyReset_fifoDepth : (s.applyReset).fifoDepth = s.fifoDepth := rfl
@[simp] theorem State.applyReset_host : (s.applyReset).host = s.host := rfl
@[simp] theorem State.applyReset_received : (s.applyReset).received = s.received := rfl

/-! ### popSymbol -/

theorem State.popSymbol_nil (h : s.fifo = []) : s.popSymbol = s := by unfold State.popSymbol; rw [h]

theorem State.popSymbol_cons {y : Symb} {ys : List Symb} (h : s.fifo = y :: ys) :
    s.popSymbol = { s with fifo := ys, received := s.received ++ [.symbol y] } := by unfold State.popSymbol; rw [h]

@[simp] theorem State.popSymbol_state : s.popSymbol.state = s.state := by unfold State.popSymbol; split <;> rfl
@[simp] theorem State.popSymbol_cur : s.popSymbol.cur = s.cur := by unfold State.popSymbol; split <;> rfl
@[simp] theorem State.popSymbol_rootValid : s.popSymbol.rootValid = s.rootValid := by unfold State.popSymbol; split <;> rfl
@[simp] theorem State.popSymbol_rootIdx : s.popSymbol.rootIdx = s.rootIdx := by unfold State.popSymbol; split <;> rfl
@[simp] theorem State.popSymbol_naddr : s.popSymbol.naddr = s.naddr := by unfold State.popSymbol; split <;> rfl
@[simp] theorem State.popSymbol_bitpos : s.popSymbol.bitpos = s.bitpos := by unfold State.popSymbol; split <;> rfl
@[simp] theorem State.popSymbol_symcnt : s.popSymbol.symcnt = s.symcnt := by unfold State.popSymbol; split <;> rfl
@[simp] theorem State.popSymbol_errCode : s.popSymbol.errCode = s.errCode := by unfold State.popSymbol; split <;> rfl
@[simp] theorem State.popSymbol_errPos : s.popSymbol.errPos = s.errPos := by unfold State.popSymbol; split <;> rfl
@[simp] theorem State.popSymbol_errData : s.popSymbol.errData = s.errData := by unfold State.popSymbol; split <;> rfl
@[simp] theorem State.popSymbol_fifo : s.popSymbol.fifo = s.fifo.tail := by
  unfold State.popSymbol; split <;> simp_all
@[simp] theorem State.popSymbol_nodeMem : s.popSymbol.nodeMem = s.nodeMem := by unfold State.popSymbol; split <;> rfl
@[simp] theorem State.popSymbol_fifoDepth : s.popSymbol.fifoDepth = s.fifoDepth := by unfold State.popSymbol; split <;> rfl
@[simp] theorem State.popSymbol_host : s.popSymbol.host = s.host := by unfold State.popSymbol; split <;> rfl
@[simp] theorem State.popSymbol_received :
    s.popSymbol.received = s.received ++ (s.fifo.take 1).map .symbol := by
  unfold State.popSymbol; split <;> simp_all

/-! ### commandError -/

theorem State.commandError_of_error (e : ErrCode) (d : Word32) (h : s.state = .error) : s.commandError e d = s := if_pos h

theorem State.commandError_of_ne (e : ErrCode) (d : Word32) (h : s.state ≠ .error) :
    s.commandError e d = s.raise e d := if_neg h

/-- The model's error entry is the one the statements write out. -/
theorem State.raise_eq_withError (e : ErrCode) (d : Word32) : s.raise e d = s.withError e d := rfl

end Sys2Proof.Machine
end

