-- ==== Sys2Proof/Laws/Exec.lean ====
section
/-!
SUPPORT. Sys2Proof/Laws/Exec.lean: what one command can do, said once. `exec_cases` lists every way `exec` answers a next state;
later proofs cite it and do not unfold a meaning.
-/
namespace Sys2Proof.Machine

theorem guarded_execute {i : Instr} {s : State} (body : Answer) (h : verdict i s.state = .execute) :
    guarded i s body = body := by simp [guarded, h]

theorem guarded_discard {i : Instr} {s : State} (body : Answer) (h : verdict i s.state = .discard) :
    guarded i s body = .next s := by simp [guarded, h]

theorem guarded_violation {i : Instr} {s : State} (body : Answer) (h : verdict i s.state = .violation) :
    guarded i s body = .next (s.commandError .stateViolation (encode i)) := by simp [guarded, h]

/-- The verdict V is R126's list, and it is never given in ERROR. -/
theorem verdict_violation_iff (i : Instr) (st : SessState) : verdict i st = .violation ↔ violates i st := by
  cases i <;> cases st <;> simp [verdict, violates]

theorem ne_error_of_violation {i : Instr} {st : SessState} (h : verdict i st = .violation) : st ≠ .error := by
  cases i <;> cases st <;> simp_all [verdict]

/-- The verdict D: BIT and FINISH in ERROR. -/
theorem verdict_discard_iff (i : Instr) (st : SessState) :
    verdict i st = .discard ↔ st = .error ∧ (i = .finish ∨ ∃ e, i = .bit e) := by
  cases i <;> cases st <;> simp [verdict]

/-- A read of node memory that goes on has read a written entry. -/
theorem withNode_next {i : NodeIdx} {s t : State} {k : NodeWord → Answer} (h : withNode i s k = .next t) :
    ∃ n, memRead s.nodeMem i = some n ∧ k n = .next t := by
  unfold withNode at h
  split at h
  · cases h
  next n hn => exact ⟨n, hn, h⟩

theorem withNode_some {i : NodeIdx} {s : State} {n : NodeWord} (k : NodeWord → Answer)
    (h : memRead s.nodeMem i = some n) : withNode i s k = k n := by simp [withNode, h]

theorem withNode_none {i : NodeIdx} {s : State} (k : NodeWord → Answer) (h : memRead s.nodeMem i = none) :
    withNode i s k = .fault (.unwrittenNode i) := by simp [withNode, h]

/-- `nodeChild` is the choice of child that `selects` writes out. -/
theorem selects_of_nodeChild {e : Elem} {b : Bool} {n : NodeWord} {i : NodeIdx} (hb : bitOf e = some b)
    (h : nodeChild n b = some i) : selects e n i := by
  unfold bitOf at hb
  unfold nodeChild nodeLV nodeRV nodeLeft nodeRight at h
  unfold selects
  split at hb
  · next he => cases hb; simp_all [bit0Code]
  · split at hb
    · next he => cases hb; simp_all [bit1Code]
    · cases hb

theorem selectsAbsent_of_nodeChild {e : Elem} {b : Bool} {n : NodeWord} (hb : bitOf e = some b)
    (h : nodeChild n b = none) : selectsAbsent e n := by
  unfold bitOf at hb
  unfold nodeChild nodeLV nodeRV at h
  unfold selectsAbsent
  split at hb
  · next he => cases hb; simp_all [bit0Code]
  · split at hb
    · next he => cases hb; simp_all [bit1Code]
    · cases hb

/-- The ways a command leads from `s` to a next state. -/
inductive Effect : Instr → State → State → Prop where
  | discarded {i s} : verdict i s.state = .discard → Effect i s s
  | violation {i s} : violates i s.state → s.state ≠ .error → Effect i s (s.withError .stateViolation (encode i))
  | nop {s} : Effect .nop s s
  | setaddr {a s} : Effect (.setaddr a) s (s.setNaddr a)
  | wnode {n s} : outside s.state → Effect (.wnode n) s (s.writeNode n)
  | setroot {rv i s} : outside s.state → Effect (.setroot rv i) s (s.setRoot rv i)
  | start {s} : outside s.state →
      Effect .start s ((s.clearSession.setCur s.rootIdx).setState (openState s.rootValid))
  | finished {s} : s.active = true → s.state = .skip ∨ s.cur = s.rootIdx → Effect .finish s (s.setState .done)
  | incomplete {s} : s.state = .run → s.cur ≠ s.rootIdx →
      Effect .finish s (s.withError .incomplete (finishErrData s.cur))
  | abort {s} : Effect .abort s ((s.clearSession.setCur 0#9).setState .idle)
  | skipped {e s} : s.state = .skip → Effect (.bit e) s s.countElement
  | invalid {e s} : s.state = .run → fifoFull s = false → bitOf e = none →
      Effect (.bit e) s (s.withError .invalidBit (elemErrData s.cur e))
  | malformed {e s n} : s.state = .run → fifoFull s = false → memRead s.nodeMem s.cur = some n → selectsAbsent e n →
      Effect (.bit e) s (s.withError .malformed (elemErrData s.cur e))
  | emitted {e s n i m} : s.state = .run → fifoFull s = false → memRead s.nodeMem s.cur = some n → selects e n i →
      memRead s.nodeMem i = some m → isLeaf m = true →
      Effect (.bit e) s ((s.pushSymbol (nodeSym m)).setCur s.rootIdx).countElement
  | descended {e s n i m} : s.state = .run → fifoFull s = false → memRead s.nodeMem s.cur = some n → selects e n i →
      memRead s.nodeMem i = some m → isLeaf m = false → Effect (.bit e) s (s.setCur i).countElement

/-- Everything the dispatch R75 can do around a command's own rule. -/
theorem guarded_cases {i : Instr} {s t : State} {body : Answer} (h : guarded i s body = .next t) :
    (verdict i s.state = .discard ∧ t = s) ∨
    (violates i s.state ∧ s.state ≠ .error ∧ t = s.withError .stateViolation (encode i)) ∨
    (verdict i s.state = .execute ∧ body = .next t) := by
  cases hv : verdict i s.state with
  | execute => exact .inr (.inr ⟨rfl, by rwa [guarded_execute _ hv] at h⟩)
  | discard =>
    rw [guarded_discard _ hv] at h
    cases h
    exact .inl ⟨rfl, rfl⟩
  | violation =>
    have hne := ne_error_of_violation hv
    rw [guarded_violation _ hv, State.commandError_of_ne _ _ _ hne] at h
    cases h
    exact .inr (.inl ⟨(verdict_violation_iff _ _).1 hv, hne, rfl⟩)

theorem outside_of_wnode {n : NodeWord} {st : SessState} (h : verdict (.wnode n) st = .execute) : outside st := by
  cases st <;> simp_all [verdict, outside]

theorem outside_of_setroot {rv : Bool} {i : NodeIdx} {st : SessState} (h : verdict (.setroot rv i) st = .execute) :
    outside st := by
  cases st <;> simp_all [verdict, outside]

theorem outside_of_start {st : SessState} (h : verdict .start st = .execute) : outside st := by
  cases st <;> simp_all [verdict, outside]

theorem active_of_finish {s : State} (h : verdict .finish s.state = .execute) : s.active = true := by
  unfold State.active
  cases hs : s.state <;> simp_all [verdict]

theorem run_of_bit {e : Elem} {st : SessState} (h : verdict (.bit e) st = .execute) (hs : st ≠ .skip) : st = .run := by
  cases st <;> simp_all [verdict]

/-- What a BIT in RUN can do (R100). -/
theorem walkBit_cases {e : Elem} {s t : State} (hr : s.state = .run) (h : walkBit e s = .next t) : Effect (.bit e) s t := by
  unfold walkBit at h
  split at h
  · cases h
  next hf =>
  have hf : fifoFull s = false := by simpa using hf
  split at h
  next hb => cases h; exact .invalid hr hf hb
  next b hb =>
  unfold descend at h
  obtain ⟨n, hn, h⟩ := withNode_next h
  split at h
  next hc => cases h; exact .malformed hr hf hn (selectsAbsent_of_nodeChild hb hc)
  next i hc =>
  unfold arriveAt at h
  obtain ⟨m, hm, h⟩ := withNode_next h
  have hsel := selects_of_nodeChild hb hc
  cases hl : isLeaf m with
  | true =>
    rw [hl] at h
    cases h
    exact .emitted hr hf hn hsel hm hl
  | false =>
    rw [hl] at h
    cases h
    exact .descended hr hf hn hsel hm hl

/-- Every next state of a command is one of the listed effects. -/
theorem exec_cases {i : Instr} {s t : State} (h : exec i s = .next t) : Effect i s t := by
  have key : ∀ {j body}, guarded j s body = .next t → (verdict j s.state = .execute → body = .next t → Effect j s t) →
      Effect j s t := by
    intro j body hg hx
    obtain ⟨hv, rfl⟩ | ⟨hv, hne, rfl⟩ | ⟨hv, hb⟩ := guarded_cases hg
    · exact .discarded hv
    · exact .violation hv hne
    · exact hx hv hb
  cases i with
  | nop => exact key h fun _ hb => by cases hb; exact .nop
  | setaddr a => exact key h fun _ hb => by cases hb; exact .setaddr
  | wnode n => exact key h fun hv hb => by cases hb; exact .wnode (outside_of_wnode hv)
  | setroot rv i => exact key h fun hv hb => by cases hb; exact .setroot (outside_of_setroot hv)
  | start => exact key h fun hv hb => by cases hb; exact .start (outside_of_start hv)
  | abort => exact key h fun _ hb => by cases hb; exact .abort
  | finish =>
    refine key h fun hv hb => ?_
    split at hb
    next hc => cases hb; exact .finished (active_of_finish hv) hc
    next hc =>
      cases hb
      have hne : s.state ≠ .skip := fun e => hc (.inl e)
      have ha := active_of_finish hv
      exact .incomplete (by simpa [State.active, hne] using ha) fun e => hc (.inr e)
  | bit e =>
    refine key h fun hv hb => ?_
    split at hb
    next hs => cases hb; exact .skipped hs
    next hs => exact walkBit_cases (run_of_bit hv hs) hb

/-! ### Running a BIT forwards -/

theorem nodeChild_of_selects {e : Elem} {n : NodeWord} {i : NodeIdx} (h : selects e n i) :
    ∃ b, bitOf e = some b ∧ nodeChild n b = some i := by
  rcases h with ⟨rfl, h, rfl⟩ | ⟨rfl, h, rfl⟩
  · exact ⟨false, by decide, by simp only [nodeChild, nodeLV, h]; rfl⟩
  · exact ⟨true, by decide, by simp only [nodeChild, nodeRV, h]; rfl⟩

theorem nodeChild_of_selectsAbsent {e : Elem} {n : NodeWord} (h : selectsAbsent e n) :
    ∃ b, bitOf e = some b ∧ nodeChild n b = none := by
  rcases h with ⟨rfl, h⟩ | ⟨rfl, h⟩
  · exact ⟨false, by decide, by simp only [nodeChild, nodeLV, h]; rfl⟩
  · exact ⟨true, by decide, by simp only [nodeChild, nodeRV, h]; rfl⟩

/-- A BIT that is not held in RUN is `walkBit`. -/
theorem exec_bit_run {s : State} {e : Elem} (h : s.state = .run) : exec (.bit e) s = walkBit e s := by
  refine (guarded_execute _ (by simp [verdict, h])).trans ?_
  simp [h]

/-- A BIT in RUN that selects a present child is the arrival there. -/
theorem walkBit_selects {s : State} {e : Elem} {n : NodeWord} {i : NodeIdx} (hf : fifoFull s = false)
    (hn : memRead s.nodeMem s.cur = some n) (hs : selects e n i) : walkBit e s = arriveAt i s := by
  obtain ⟨b, hb, hc⟩ := nodeChild_of_selects hs
  simp [walkBit, hf, hb, descend, withNode_some _ hn, hc]

end Sys2Proof.Machine
end

