-- ==== Sys2Proof/Laws/PerInstr.lean ====
section
/-!
SUPPORT. Sys2Proof/Laws/PerInstr.lean: the per-instruction families of LAWS.json. Family `EncodedOpcode`: the word of a command
carries the opcode of its row (spec/30_encoding.md R66).
-/
namespace Sys2Proof.Laws.EncodedOpcode

/-- OPC of each row of R66. -/
def rowOpcode : Instr → BitVec 4
  | .nop => 0x0#4
  | .setaddr _ => 0x1#4
  | .wnode _ => 0x2#4
  | .setroot _ _ => 0x3#4
  | .start => 0x4#4
  | .bit _ => 0x5#4
  | .finish => 0x6#4
  | .abort => 0x7#4

def Statement (i : Instr) : Prop := opcodeOf (encode i) = rowOpcode i

/-- A word whose last field is `n` bits and whose other fields are `m + n = 28` bits carries its first field as the opcode. -/
theorem opcodeOf_append (a : BitVec 4) {m n : Nat} (b : BitVec m) (c : BitVec n) (h : m + n = 28) :
    opcodeOf ((a ++ b ++ c).cast (by omega : 4 + m + n = 32)) = a := by
  unfold opcodeOf
  apply BitVec.eq_of_getLsbD_eq
  intro j hj
  have h1 : ¬ 28 + j < n := by omega
  have h2 : ¬ 28 + j - n < m := by omega
  have h3 : 28 + j - n - m = j := by omega
  simp [BitVec.getLsbD_append, hj, h1, h2, h3]

theorem nop : Statement .nop := by unfold Statement; decide

theorem setaddr (a : NodeIdx) : Statement (.setaddr a) := opcodeOf_append 0x1#4 0#19 a rfl

theorem wnode (n : NodeWord) : Statement (.wnode n) := by
  have h : encode (.wnode n) = (0x2#4 ++ (0#0) ++ n : BitVec (4 + 0 + 28)).cast (by decide) := rfl
  unfold Statement
  rw [h]
  exact opcodeOf_append 0x2#4 0#0 n rfl

theorem setroot (rv : Bool) (i : NodeIdx) : Statement (.setroot rv i) := by
  have h : encode (.setroot rv i) = (0x3#4 ++ (0#18 ++ BitVec.ofBool rv) ++ i : BitVec (4 + 19 + 9)).cast (by decide) := by
    cases rv <;> rfl
  unfold Statement
  rw [h]
  exact opcodeOf_append 0x3#4 (0#18 ++ BitVec.ofBool rv) i rfl

theorem start : Statement .start := by unfold Statement; decide

theorem bit (e : Elem) : Statement (.bit e) := opcodeOf_append 0x5#4 0#20 e rfl

theorem finish : Statement .finish := by unfold Statement; decide

theorem abort : Statement .abort := by unfold Statement; decide

end Sys2Proof.Laws.EncodedOpcode
end

