-- ==== Sys2Proof/Laws/Step.lean ====
section
/-!
SUPPORT. Sys2Proof/Laws/Step.lean: what one step can do, said once. `step_cases` lists every way `step` answers a next state.
-/
namespace Sys2Proof.Machine

/-! ### The host's script does not matter to the ports -/

@[simp] theorem fifoFull_setHost (s : State) (h : List HostStep) : fifoFull (s.setHost h) = fifoFull s := rfl
@[simp] theorem holds_setHost (w : Word32) (s : State) (h : List HostStep) : holds w (s.setHost h) = holds w s := rfl
@[simp] theorem accepts_setHost (p : PortIn) (s : State) (h : List HostStep) : accepts p (s.setHost h) = accepts p s := rfl
@[simp] theorem symValid_setHost (r : Bool) (s : State) (h : List HostStep) : symValid r (s.setHost h) = symValid r s := rfl
@[simp] theorem rdData_setHost (a : RdAddr) (s : State) (h : List HostStep) : rdData a (s.setHost h) = rdData a s := rfl

/-! ### The pop of an edge -/

/-- A pop on an empty FIFO changes nothing, so an edge that is no reset pops exactly when sym_ready is 1 (R37). -/
theorem popEdge_eq (p : PortIn) (s : State) (hr : p.rst = false) :
    popEdge p s = if p.symReady = true then s.popSymbol else s := by
  unfold popEdge symValid fifoEmpty fifoCount
  cases hf : s.fifo with
  | nil => simp [hr, s.popSymbol_nil hf]
  | cons y ys => simp [hr]

/-- An accepting edge is no reset, its command is valid and is not held. -/
theorem accepts_iff (p : PortIn) (s : State) :
    accepts p s = true ↔ p.cmdValid = true ∧ p.rst = false ∧ holds p.cmdData s = false := by
  simp [accepts, cmdReady]

/-! ### One accepted word -/

theorem stepCommand_ok {w : Word32} {i : Instr} (s : State) (h : decode w = .ok i) : stepCommand w s = exec i s := by
  simp [stepCommand, h]

theorem stepCommand_error {w : Word32} {r : DecodeError} (s : State) (h : decode w = .error r) :
    stepCommand w s = .next (s.commandError .illegalCommand w) := by simp [stepCommand, h]

/-- Everything an accepted word can do (R75). -/
theorem stepCommand_cases {w : Word32} {s t : State} (h : stepCommand w s = .next t) :
    ((∃ r, decode w = .error r) ∧ s.state = .error ∧ t = s) ∨
    ((∃ r, decode w = .error r) ∧ s.state ≠ .error ∧ t = s.withError .illegalCommand w) ∨
    (∃ i, decode w = .ok i ∧ Effect i s t) := by
  cases hd : decode w with
  | error r =>
    rw [stepCommand_error s hd] at h
    by_cases hs : s.state = .error
    · rw [State.commandError_of_error _ _ _ hs] at h
      cases h
      exact .inl ⟨⟨r, rfl⟩, hs, rfl⟩
    · rw [State.commandError_of_ne _ _ _ hs] at h
      cases h
      exact .inr (.inl ⟨⟨r, rfl⟩, hs, rfl⟩)
  | ok i => exact .inr (.inr ⟨i, rfl, exec_cases (by rwa [stepCommand_ok s hd] at h)⟩)

/-! ### One step -/

theorem step_nil {s : State} (h : s.host = []) : step s = .next s := by simp [step, h]

theorem step_cons {s : State} {x : HostStep} {rest : List HostStep} (h : s.host = x :: rest) :
    step s = hostStep x (s.setHost rest) := by simp [step, h]

/-- An edge with rst = 1. -/
theorem step_reset {s : State} {p : PortIn} {rest : List HostStep} (h : s.host = .edge p :: rest) (hr : p.rst = true) :
    step s = .next (s.setHost rest).applyReset := by simp [step_cons h, hostStep, clockEdge, hr]

/-- An edge that accepts a command. -/
theorem step_accept {s : State} {p : PortIn} {rest : List HostStep} (h : s.host = .edge p :: rest) (ha : accepts p s = true) :
    step s = stepCommand p.cmdData (popEdge p (s.setHost rest)) := by
  have hr := ((accepts_iff p s).1 ha).2.1
  simp [step_cons h, hostStep, clockEdge, hr, ha]

/-- An edge without reset that accepts no command. -/
theorem step_no_accept {s : State} {p : PortIn} {rest : List HostStep} (h : s.host = .edge p :: rest) (hr : p.rst = false)
    (ha : accepts p s = false) : step s = .next (popEdge p (s.setHost rest)) := by
  simp [step_cons h, hostStep, clockEdge, hr, ha]

/-- A read that goes on gives the host `rd_data` (R112). -/
theorem readRegister_next {a : RdAddr} {s t : State} (h : readRegister a s = .next t) :
    ∃ v, rdData a s = some v ∧ t = s.receive (.data a v) := by
  unfold readRegister at h
  split at h
  · cases h
  next v hv => cases h; exact ⟨v, hv, rfl⟩

/-- Everything a step can do. -/
theorem step_cases {s t : State} (h : step s = .next t) :
    (s.host = [] ∧ t = s) ∨
    (∃ a v rest, s.host = .read a :: rest ∧ rdData a s = some v ∧ t = (s.setHost rest).receive (.data a v)) ∨
    (∃ p rest, s.host = .edge p :: rest ∧ p.rst = true ∧ t = (s.setHost rest).applyReset) ∨
    (∃ p rest, s.host = .edge p :: rest ∧ p.rst = false ∧ accepts p s = false ∧ t = popEdge p (s.setHost rest)) ∨
    (∃ p rest, s.host = .edge p :: rest ∧ p.rst = false ∧ accepts p s = true ∧
      stepCommand p.cmdData (popEdge p (s.setHost rest)) = .next t) := by
  cases hh : s.host with
  | nil =>
    rw [step_nil hh] at h
    cases h
    exact .inl ⟨rfl, rfl⟩
  | cons x rest =>
    cases x with
    | read a =>
      rw [step_cons hh] at h
      obtain ⟨v, hv, rfl⟩ := readRegister_next h
      exact .inr (.inl ⟨a, v, rest, rfl, by simpa using hv, rfl⟩)
    | edge p =>
      cases hr : p.rst with
      | true =>
        rw [step_reset hh hr] at h
        cases h
        exact .inr (.inr (.inl ⟨p, rest, rfl, hr, rfl⟩))
      | false =>
        cases ha : accepts p s with
        | false =>
          rw [step_no_accept hh hr ha] at h
          cases h
          exact .inr (.inr (.inr (.inl ⟨p, rest, rfl, hr, ha, rfl⟩)))
        | true =>
          rw [step_accept hh ha] at h
          exact .inr (.inr (.inr (.inr ⟨p, rest, rfl, hr, ha, h⟩)))

/-- `s'` is `s` after the pop of an edge, or without one: every register but FIFO is as before, and what left FIFO went to the
host (R110). -/
structure PopOf (s s' : State) : Prop where
  state     : s'.state = s.state
  cur       : s'.cur = s.cur
  rootValid : s'.rootValid = s.rootValid
  rootIdx   : s'.rootIdx = s.rootIdx
  naddr     : s'.naddr = s.naddr
  bitpos    : s'.bitpos = s.bitpos
  symcnt    : s'.symcnt = s.symcnt
  errCode   : s'.errCode = s.errCode
  errPos    : s'.errPos = s.errPos
  errData   : s'.errData = s.errData
  nodeMem   : s'.nodeMem = s.nodeMem
  fifoDepth : s'.fifoDepth = s.fifoDepth
  popped    : ∃ k ≤ 1, s'.received = s.received ++ (s.fifo.take k).map .symbol ∧ s'.fifo = s.fifo.drop k

theorem popOf_setHost (s : State) (h : List HostStep) : PopOf s (s.setHost h) :=
  ⟨rfl, rfl, rfl, rfl, rfl, rfl, rfl, rfl, rfl, rfl, rfl, rfl, 0, by omega, by simp, by simp⟩

theorem popOf_popSymbol (s : State) (h : List HostStep) : PopOf s (s.setHost h).popSymbol := by
  constructor
  case popped => exact ⟨1, by omega, by simp, by simp⟩
  all_goals simp

theorem popOf_popEdge (p : PortIn) (s : State) (h : List HostStep) : PopOf s (popEdge p (s.setHost h)) := by
  unfold popEdge
  split
  · exact popOf_popSymbol s h
  · exact popOf_setHost s h

/-- Everything a step can do, with the effect of the accepted command spelled out. -/
theorem step_effect {s t : State} (h : step s = .next t) :
    t = s ∨
    (∃ a v rest, s.host = .read a :: rest ∧ rdData a s = some v ∧ t = (s.setHost rest).receive (.data a v)) ∨
    (∃ rest, resetsNext s = true ∧ t = (s.setHost rest).applyReset) ∨
    (∃ s', PopOf s s' ∧
      (t = s' ∨
       (∃ w, acceptedWord s = some w ∧ s'.state ≠ .error ∧ t = s'.withError .illegalCommand w) ∨
       (∃ w i, acceptedWord s = some w ∧ decode w = .ok i ∧ Effect i s' t))) := by
  rcases step_cases h with ⟨_, rfl⟩ | hread | ⟨p, rest, hh, hr, rfl⟩ | ⟨p, rest, hh, _, _, rfl⟩ | ⟨p, rest, hh, _, ha, hx⟩
  · exact .inl rfl
  · exact .inr (.inl hread)
  · exact .inr (.inr (.inl ⟨rest, by simp [resetsNext, hh, hr], rfl⟩))
  · exact .inr (.inr (.inr ⟨_, popOf_popEdge p s rest, .inl rfl⟩))
  · have hw : acceptedWord s = some p.cmdData := by simp [acceptedWord, hh, ha]
    refine .inr (.inr (.inr ⟨_, popOf_popEdge p s rest, ?_⟩))
    rcases stepCommand_cases hx with ⟨_, _, rfl⟩ | ⟨_, hne, rfl⟩ | ⟨i, hd, hE⟩
    · exact .inl rfl
    · exact .inr (.inl ⟨_, hw, hne, rfl⟩)
    · exact .inr (.inr ⟨_, i, hw, hd, hE⟩)

/-- On an edge, the words the statements use about the next step. -/
theorem acceptedWord_edge {s : State} {p : PortIn} {rest : List HostStep} (h : s.host = .edge p :: rest) :
    acceptedWord s = if accepts p s = true then some p.cmdData else none := by simp [acceptedWord, h]

theorem resetsNext_edge {s : State} {p : PortIn} {rest : List HostStep} (h : s.host = .edge p :: rest) :
    resetsNext s = p.rst := by simp [resetsNext, h]

/-! ### Runs: the words accepted and the symbols received -/

@[simp] theorem acceptedWords_zero (s : State) : acceptedWords 0 s = [] := rfl

/-- The words a run accepts are that of its first step, if it accepts one, and then those of the rest. -/
theorem acceptedWords_succ {s t : State} (n : Nat) (h : step s = .next t) :
    acceptedWords (n + 1) s = (acceptedWord s).toList ++ acceptedWords n t := by simp [acceptedWords, h]

/-- A read gives the host no symbol. -/
@[simp] theorem gotSymbols_receive_data (s : State) (a : RdAddr) (v : Word32) :
    (s.receive (.data a v)).gotSymbols = s.gotSymbols := by simp [State.gotSymbols, State.receive]

/-- A pop moves at most one symbol from the head of FIFO to the end of what the host has got: none is lost (R63, R110). -/
theorem PopOf.gotSymbols {s s' : State} (h : PopOf s s') :
    ∃ ys : List Symb, ys.length ≤ 1 ∧ s'.gotSymbols = s.gotSymbols ++ ys ∧ ys ++ s'.fifo = s.fifo := by
  obtain ⟨k, hk, hr, hf⟩ := h.popped
  refine ⟨s.fifo.take k, by simp; omega, ?_, by simp [hf]⟩
  rw [State.gotSymbols, hr, List.filterMap_append, List.filterMap_map]
  simp [State.gotSymbols]

end Sys2Proof.Machine
end

