-- ==== Sys2Proof/Tests/Slice0.lean ====
section
/-!
SUPPORT. Sys2Proof/Tests/Slice0.lean: the smoke test of WellFormed, decoding of words written out in the spec, one-step tests
whose expected results are the vectors of spec/95_test_vectors.md, and for every statement with hypotheses a witness that they
can be met.
-/
namespace Sys2Proof.Tests
open Sys2Proof Sys2Proof.Machine

/-! ### Small states -/

/-- The answer is a next state of which `f` holds. -/
def sees (a : Answer) (f : State → Bool) : Bool :=
  match a with
  | .next t => f t
  | _ => false

/-- The trees of 95_test_vectors.md section 2. -/
def abb : NodeMem := [(0, 0xC020200#28), (1, 0x0000061#28), (2, 0x0000062#28)]
def abc : NodeMem := [(0, 0xC020400#28), (1, 0xC040300#28), (2, 0x0000061#28), (3, 0x0000062#28), (4, 0x0000063#28)]
def wrapper : NodeMem := [(0, 0x8020000#28), (1, 0x0000061#28)]
def bareLeaf : NodeMem := [(0, 0x000007A#28)]

/-- An HDEC with FIFO_DEPTH = 2, this tree with its root at index 0, NADDR = 3 and this STATE. -/
def loaded (m : NodeMem) (st : SessState) : State :=
  { State.resetWith ⟨2, by decide, by decide⟩ with nodeMem := m, rootValid := true, naddr := 3#9, state := st }

/-- T_abb in RUN with FIFO = [a, b], full: the state of vector H-3. -/
def fullRun : State := { loaded abb .run with fifo := [0x61#8, 0x62#8], bitpos := 2#32, symcnt := 2#32 }

/-- T_abb in ERROR with the record of vector W5. -/
def failed : State := { loaded abb .error with errCode := .invalidBit, errData := 0x32#32 }

/-- T_abc in RUN at node 1, after the element '0'. -/
def inside : State := { loaded abc .run with cur := 1#9, bitpos := 1#32 }

/-- An edge without reset: the word presented, if any, and sym_ready. -/
def pins (w : Option Word32) (pop : Bool) : PortIn := ⟨false, w.isSome, w.getD 0#32, pop⟩

/-- A rising edge with rst = 1 that also presents NOP and raises sym_ready. -/
def resetPins : PortIn := ⟨true, true, 0#32, true⟩

/-- `s` with this edge as the host's one next step. -/
def driven (s : State) (p : PortIn) : State := { s with host := [.edge p] }

/-- `s` with this word presented at the next edge and nothing popped. -/
def given (s : State) (w : Word32) : State := driven s (pins (some w) false)

/-! ### WellFormed smoke test: one ill-formed term for each check (R69, R77) -/

theorem test_ill_formed_commands : ∀ a ∈ ([.setaddr 512, .wnode ⟨some 512, none, 0⟩, .wnode ⟨none, some 512, 0⟩,
    .wnode ⟨none, none, 256⟩, .wnodeLeaf 256, .wnodeNode (some 512) none, .wnodeNode none (some 512), .setroot (some 512),
    .bit (.byte 256), .word (2 ^ 32)] : List Asm), a.wf = false := by decide

theorem test_ill_formed_pseudo : ∀ a ∈ ([.loadnode 512 ⟨none, none, 0⟩, .loadnode 0 ⟨none, none, 256⟩, .loadtree 512 [],
    .loadtree 0 [⟨none, none, 0⟩, ⟨some 512, none, 0⟩], .bits [0x30, 256], .decode [256]] : List Asm), a.wf = false := by decide

theorem test_well_formed_commands : ∀ a ∈ ([.nop, .setaddr 511, .wnode ⟨some 511, some 511, 255⟩, .wnodeLeaf 255,
    .wnodeNode (some 511) none, .setroot (some 511), .setroot none, .start, .bit .zero, .bit (.byte 255), .finish, .abort,
    .word (2 ^ 32 - 1)] : List Asm), a.wf = true := by decide

theorem test_well_formed_pseudo : ∀ a ∈ ([.loadnode 511 ⟨none, none, 255⟩, .loadtree 511 [⟨some 0, none, 0⟩], .bits [],
    .decode [0x30]] : List Asm), a.wf = true := by decide

theorem test_illegal_words : List.any [0x00000001#32, 0x10000205#32, 0x30000400#32, 0x40000001#32, 0x50000130#32, 0x60000100#32,
    0x70000010#32, 0x80000000#32, 0xF0000000#32] wordLegal = false := rfl

/-! ### Decoding: the words of 95_test_vectors.md, the table's numbering, and the assembler -/

theorem test_decode_nop : decode 0x00000000#32 = .ok .nop := rfl
theorem test_decode_setaddr : decode 0x100001FF#32 = .ok (.setaddr 511#9) := rfl
theorem test_decode_wnode : decode 0x2C020200#32 = .ok (.wnode (nodeWord true true 1#9 2#9 0#8)) := rfl
theorem test_decode_wnode_leaf : decode 0x20000061#32 = .ok (.wnode (nodeWord false false 0#9 0#9 0x61#8)) := rfl
theorem test_decode_wnode_left : decode 0x28020000#32 = .ok (.wnode (nodeWord true false 1#9 0#9 0#8)) := rfl
theorem test_decode_wnode_right : decode 0x24000100#32 = .ok (.wnode (nodeWord false true 0#9 1#9 0#8)) := rfl
theorem test_decode_setroot : decode 0x30000201#32 = .ok (.setroot true 1#9) := rfl
theorem test_decode_setroot_absent : decode 0x30000000#32 = .ok (.setroot false 0#9) := rfl
theorem test_decode_start : decode 0x40000000#32 = .ok .start := rfl
theorem test_decode_bit : decode 0x50000032#32 = .ok (.bit 0x32#8) := rfl
theorem test_decode_finish : decode 0x60000000#32 = .ok .finish := rfl
theorem test_decode_abort : decode 0x70000000#32 = .ok .abort := rfl
theorem test_decode_reserved_payload : decode 0x50000130#32 = .error .reservedPayload := rfl
theorem test_decode_reserved_opcode : decode 0x80000000#32 = .error .reservedOpcode := rfl
theorem test_decodeTableWord : decodeTableWord 32 0x10000005 = some (.setaddr 5#9) ∧ decodeTableWord 32 0xF0000000 = none := by
  decide
theorem test_assemble_loadtree : assemble (.loadtree 0 [⟨some 1, none, 0⟩, ⟨none, none, 0x61⟩]) =
    some [0x10000000#32, 0x28020000#32, 0x20000061#32] := by decide
theorem test_assemble_decode : assemble (.decode [0x30, 0x31]) =
    some [0x40000000#32, 0x50000030#32, 0x50000031#32, 0x60000000#32] := by decide

theorem test_disassemble : List.map disassemble [0x28020000#32, 0x20000061#32, 0x30000000#32, 0x50000030#32, 0x80000000#32] =
    [.wnode ⟨some 1, none, 0⟩, .wnode ⟨none, none, 0x61⟩, .setroot none, .bit (.byte 0x30), .word 0x80000000] := by decide

/-! ### One step: vectors of 95_test_vectors.md section 3, each named in its comment -/

/-- S-1. -/
theorem test_nop : sees (stepCommand 0x00000000#32 State.reset) (fun t => statusWord t == 0x00000100#32) = true := by decide
/-- T-1. -/
theorem test_setaddr : sees (stepCommand 0x10000005#32 State.reset) (fun t => t.naddr == 5#9 && t.state == .idle) = true := by
  decide
/-- T-6. -/
theorem test_setaddr_reserved : sees (stepCommand 0x10000205#32 State.reset)
    (fun t => t.naddr == 0#9 && t.errData == 0x10000205#32 && statusWord t == 0x00000144#32) = true := by decide
/-- T-3. -/
theorem test_wnode_wraps : sees (stepCommand 0x20000071#32 { State.reset with naddr := 511#9 })
    (fun t => memRead t.nodeMem 511#9 == some 0x71#28 && t.naddr == 0#9) = true := by decide
/-- T-8. -/
theorem test_wnode_in_run : sees (stepCommand 0x2C020200#32 (loaded abb .run))
    (fun t => t.nodeMem == abb && t.naddr == 3#9 && t.errData == 0x2C020200#32 && statusWord t == 0x00000154#32) = true := by
  decide
/-- T-4. -/
theorem test_setroot : sees (stepCommand 0x30000200#32 State.reset) (fun t => rdData 0x5#4 t == some 0x00000200#32) = true := by
  decide
/-- T-10. -/
theorem test_setroot_in_skip : sees (stepCommand 0x30000201#32 { State.reset with state := .skip })
    (fun t => t.rootIdx == 0#9 && t.errData == 0x30000201#32 && statusWord t == 0x00000154#32) = true := by decide
/-- S-2. -/
theorem test_start_absent_root : sees (stepCommand 0x40000000#32 State.reset) (fun t => statusWord t == 0x00000102#32) = true := by
  decide
/-- S-11, E-8. -/
theorem test_start_after_error : sees (stepCommand 0x40000000#32 failed)
    (fun t => statusWord t == 0x00000101#32 && t.errData == 0#32 && t.cur == 0#9) = true := by decide
/-- B-8, its second element. -/
theorem test_bit_malformed : sees (stepCommand 0x50000031#32 { loaded wrapper .run with fifo := [0x61#8], bitpos := 1#32 })
    (fun t => t.errPos == 1#32 && t.errData == 0x00000031#32 && statusWord t == 0x00010024#32) = true := by decide
/-- B-12. -/
theorem test_bit_counters_wrap : sees (stepCommand 0x50000030#32
    { loaded abb .run with bitpos := 0xFFFFFFFF#32, symcnt := 0xFFFFFFFF#32 })
    (fun t => t.fifo == [0x61#8] && t.cur == 0#9 && t.bitpos == 0#32 && t.symcnt == 0#32) = true := by decide
/-- S-4. -/
theorem test_finish_inside_code : sees (stepCommand 0x60000000#32 inside)
    (fun t => t.cur == 1#9 && t.errPos == 1#32 && t.errData == 0x00010000#32 && statusWord t == 0x00000134#32) = true := by decide
/-- S-10. -/
theorem test_finish_when_done : sees (stepCommand 0x60000000#32 (loaded abb .done))
    (fun t => t.errData == 0x60000000#32 && statusWord t == 0x00000154#32) = true := by decide
/-- S-8, H-5. -/
theorem test_abort : sees (stepCommand 0x70000000#32 fullRun)
    (fun t => t.bitpos == 0#32 && rdData 0x5#4 t == some 0x00000200#32 && statusWord t == 0x00000100#32) = true := by decide
/-- H-3, H-4: the first pop lets BIT in at the next edge only. -/
theorem test_hold_and_pop : sees (step (driven fullRun (pins (some 0x50000031#32) true)))
    (fun t => t.fifo == [0x62#8] && t.bitpos == 2#32 && t.received == [.symbol 0x61#8]) = true := by decide
/-- O-4, O-5. -/
theorem test_reads_after_reset : (List.map (fun a => rdData a State.reset) [0x0#4, 0x1#4, 0x5#4, 0x7#4, 0x8#4, 0x9#4, 0xF#4]) =
    [some 0x100#32, some 0#32, some 0#32, some 0#32, none, some 0#32, some 0#32] := by decide
/-- H-2. -/
theorem test_reset : sees (step (driven fullRun resetPins))
    (fun t => t.fifo == [] && !t.rootValid && t.nodeMem == abb && t.received == []) = true := by decide

/-! ### Witnesses: the hypotheses of each statement, met by concrete values -/

theorem witness_EncodeOfDecode : decode 0x30000200#32 = .ok (.setroot true 0#9) := rfl

theorem witness_ReservedWordsRaiseIllegalCommand :
    8 ≤ (BitVec.extractLsb' 28 4 0x80000000#32).toNat ∧ 8 ≤ (BitVec.extractLsb' 28 4 0xFFFFFFFF#32).toNat ∧
    (BitVec.extractLsb' 28 4 0x70000001#32).toNat ≤ 7 ∧ 0x70000001#32 &&& reservedMask 7#4 ≠ 0#32 ∧
    wordLegal 0x00000001#32 = false ∧ State.reset.state ≠ .error ∧ failed.state = .error := by decide

theorem witness_AssemblerEncodesEachForm : 511 < 512 ∧ 255 < 256 ∧ 0xFFFFFFFF < 2 ^ 32 ∧ wordLegal 0x80000000#32 = false := by
  decide

theorem witness_PseudoInstructionsExpand : outside State.reset.state ∧ ([⟨some 0, none, 0⟩, ⟨none, none, 97⟩] : List NodeArgs).length ≤ 512 ∧
    assemble (.loadtree 511 [⟨some 0, none, 0⟩, ⟨none, none, 97⟩]) = some [0x100001FF#32, 0x28000000#32, 0x20000061#32] :=
  ⟨.inl rfl, by decide, by decide⟩

/-- A node word of each kind: both children, left only, leaf; then a leaf with LEFT set and a left-only node with RIGHT set. -/
theorem witness_DisassembleEachForm :
    (BitVec.getLsbD 0xC020200#28 27 = true ∧ BitVec.getLsbD 0xC020200#28 26 = true) ∧
    (BitVec.getLsbD 0x8020000#28 27 = true ∧ BitVec.extractLsb' 8 9 0x8020000#28 = 0#9) ∧
    (BitVec.extractLsb' 17 9 0x0000061#28 = 0#9 ∧ BitVec.extractLsb' 8 9 0x0000061#28 = 0#9) ∧
    (BitVec.getLsbD 0x0020061#28 27 = false ∧ BitVec.extractLsb' 17 9 0x0020061#28 ≠ 0#9) ∧
    (BitVec.getLsbD 0x8000100#28 26 = false ∧ BitVec.extractLsb' 8 9 0x8000100#28 ≠ 0#9) ∧
    511#9 ≠ 0#9 ∧ wordLegal 0xFFFFFFFF#32 = false :=
  ⟨⟨rfl, rfl⟩, ⟨rfl, rfl⟩, ⟨rfl, rfl⟩, ⟨rfl, by decide⟩, ⟨rfl, by decide⟩, by decide, rfl⟩

theorem witness_StepRunsDecodedCommand :
    (∀ b ∈ [true, false], accepts (pins (some 0x40000000#32) b) { fullRun with host := [] } = true) ∧
    decode 0x40000000#32 = .ok .start ∧ cmdReady false 0x40000000#32 State.reset = true := ⟨by decide, rfl, by decide⟩

theorem witness_FullFifoHoldsBit :
    (∀ b ∈ [true, false], (pins (some 0x50000031#32) b).rst = false) ∧ cmdReady false 0x50000031#32 fullRun = false ∧
    acceptedWord (given fullRun 0x50000031#32) = none ∧ popsNext (given fullRun 0x50000031#32) = false ∧
    resetsNext (given fullRun 0x50000031#32) = false ∧
    sees (step (given fullRun 0x50000031#32)) (fun t => t == { fullRun with host := [] }) = true ∧
    acceptedWord (given fullRun 0x00000000#32) = some (encode .nop) ∧
    acceptedWord (given fullRun 0x100001FF#32) = some (encode (.setaddr 511#9)) ∧
    popsNext (given fullRun 0x100001FF#32) = false ∧ resetsNext (given fullRun 0x100001FF#32) = false ∧
    sees (step (given fullRun 0x100001FF#32)) (fun t => t.naddr == 511#9) = true ∧
    fullRun.state = .run ∧ fullRun.fifo.length = fullRun.fifoDepth.val := by decide

theorem witness_PopDeliversHead : (pins none true).rst = false ∧ (pins none true).symReady = true ∧
    accepts (pins none true) fullRun = false ∧ accepts (pins (some 0x60000000#32) true) fullRun = true ∧
    fullRun.fifo = [0x61#8, 0x62#8] ∧ (loaded abb .run).fifo = [] ∧ cmdReady false 0x50000000#32 fullRun = false := by decide

theorem witness_SameEdgePopThenCommand :
    accepts (pins (some 0x40000000#32) true) fullRun = true ∧ fullRun.fifo.length ≤ fullRun.fifoDepth.val ∧ fullRun.fifo ≠ [] ∧
    sees (stepCommand 0x40000000#32 fullRun) (fun t => t.state == .error) = true ∧
    sees (step (driven fullRun (pins (some 0x40000000#32) true))) (fun t => t.state == .error) = true ∧
    0x50000031#32 = encode (.bit 0x31#8) ∧ fullRun.state = .run ∧ fullRun.fifo.length = fullRun.fifoDepth.val ∧
    fullRun.fifo = 0x61#8 :: [0x62#8] := by decide

theorem witness_ReadRegisterMap : memRead (loaded abb .idle).nodeMem 0#9 = some 0xC020200#28 ∧
    9 ≤ (0x9#4 : RdAddr).toNat ∧ 9 ≤ (0xF#4 : RdAddr).toNat ∧
    rdData 0x8#4 { loaded abb .idle with naddr := 0#9, host := [.read 0x8#4] } = some 0x0C020200#32 := by decide

theorem witness_StatusLayout : (loaded abb .run).fifo.length ≤ 2 ∧ fullRun.fifo.length ≤ fullRun.fifoDepth.val := by decide

theorem witness_WrittenNodeReadsBack : outside State.reset.state ∧ outside failed.state := ⟨.inl rfl, .inr (.inr rfl)⟩

theorem witness_ResetEdge : (driven fullRun resetPins).host = .edge resetPins :: [] ∧ resetPins.rst = true ∧
    sees (step (driven fullRun resetPins)) (fun t => !t.rootValid) = true := by decide

theorem witness_PortsDuringReset : (1 ≤ (0x1#4 : RdAddr).toNat ∧ (0x1#4 : RdAddr).toNat ≤ 7) ∧
    1 ≤ (0x7#4 : RdAddr).toNat ∧ (0x7#4 : RdAddr).toNat ≤ 7 := by decide

/-- The premises on a word of SetaddrSetsNodeAddress, SetrootNamesRoot, NopChangesNothing, StartOpensSession,
FinishClosesSession, AbortReturnsToIdle and BitOutsideRun, and on an opcode of WnodeStoresAtNodeAddress. -/
theorem witness_reserved_payload :
    (BitVec.extractLsb' 28 4 0x10000200#32 = 0x1#4 ∧ BitVec.extractLsb' 9 19 0x10000200#32 ≠ 0#19) ∧
    (BitVec.extractLsb' 28 4 0x30000400#32 = 0x3#4 ∧ BitVec.extractLsb' 10 18 0x30000400#32 ≠ 0#18) ∧
    (BitVec.extractLsb' 28 4 0x00000001#32 = 0x0#4 ∧ BitVec.extractLsb' 0 28 0x00000001#32 ≠ 0#28) ∧
    (BitVec.extractLsb' 28 4 0x48000000#32 = 0x4#4 ∧ BitVec.extractLsb' 0 28 0x48000000#32 ≠ 0#28) ∧
    (BitVec.extractLsb' 28 4 0x60000100#32 = 0x6#4 ∧ BitVec.extractLsb' 0 28 0x60000100#32 ≠ 0#28) ∧
    (BitVec.extractLsb' 28 4 0x70000010#32 = 0x7#4 ∧ BitVec.extractLsb' 0 28 0x70000010#32 ≠ 0#28) ∧
    (BitVec.extractLsb' 28 4 0x50000100#32 = 0x5#4 ∧ BitVec.extractLsb' 8 20 0x50000100#32 ≠ 0#20) ∧
    BitVec.extractLsb' 28 4 0x2FFFFFFF#32 = 0x2#4 := by decide

/-- The premises on STATE of WnodeStoresAtNodeAddress, SetrootNamesRoot, StartOpensSession and TreeFixedDuringSession. -/
theorem witness_states : (outside (loaded abb .idle).state ∧ outside (loaded abb .done).state ∧ outside failed.state) ∧
    (loaded abb .run).active = true ∧ (loaded abb .skip).active = true :=
  ⟨⟨.inl rfl, .inr (.inl rfl), .inr (.inr rfl)⟩, by decide, by decide⟩

theorem witness_FinishClosesSession : (loaded abb .skip).state = .skip ∧
    ((loaded abb .run).state = .run ∧ (loaded abb .run).cur = (loaded abb .run).rootIdx) ∧
    (inside.state = .run ∧ inside.cur ≠ inside.rootIdx) ∧ failed.state = .error ∧ (loaded abb .done).state = .done := by decide

theorem witness_BitEmitsSymbolAtLeaf : (loaded abb .run).state = .run ∧ (loaded abb .run).fifo.length ≠ 2 ∧
    memRead abb 0#9 = some 0xC020200#28 ∧ selects 0x30#8 0xC020200#28 1#9 ∧ selects 0x31#8 0xC020200#28 2#9 ∧
    memRead abb 1#9 = some 0x61#28 ∧ BitVec.getLsbD 0x61#28 27 = false ∧ BitVec.getLsbD 0x61#28 26 = false :=
  ⟨rfl, by decide, by decide, .inl ⟨rfl, rfl, rfl⟩, .inr ⟨rfl, rfl, rfl⟩, by decide, rfl, rfl⟩

theorem witness_BitDescendsToInnerNode : (loaded abc .run).state = .run ∧ (loaded abc .run).fifo.length ≠ 2 ∧
    memRead abc 0#9 = some 0xC020400#28 ∧ selects 0x30#8 0xC020400#28 1#9 ∧ memRead abc 1#9 = some 0xC040300#28 ∧
    BitVec.getLsbD 0xC040300#28 27 = true := ⟨rfl, by decide, by decide, .inl ⟨rfl, rfl, rfl⟩, by decide, rfl⟩

theorem witness_InvalidElementRaisesInvalidBit : (loaded abb .run).state = .run ∧
    (loaded abb .run).fifo.length ≠ (loaded abb .run).fifoDepth.val ∧ (0x32#8 ≠ 0x30#8 ∧ 0x32#8 ≠ 0x31#8) ∧
    (loaded abb .skip).state = .skip ∧ sees (exec (.bit 0x32#8) (loaded abb .skip)) (fun t => t.bitpos == 1#32) = true := by decide

theorem witness_AbsentChildRaisesMalformed : (loaded wrapper .run).state = .run ∧ (loaded wrapper .run).fifo.length ≠ 2 ∧
    memRead wrapper 0#9 = some 0x8020000#28 ∧ selectsAbsent 0x31#8 0x8020000#28 :=
  ⟨rfl, by decide, by decide, .inr ⟨rfl, rfl⟩⟩

theorem witness_SingleSymbolWrapperWalk : (loaded wrapper .run).state = .run ∧ (loaded wrapper .run).fifo.length ≠ 2 ∧
    (loaded wrapper .run).cur = (loaded wrapper .run).rootIdx ∧ memRead wrapper 0#9 = some 0x8020000#28 ∧
    BitVec.getLsbD 0x8020000#28 27 = true ∧ BitVec.getLsbD 0x8020000#28 26 = false ∧
    memRead wrapper (BitVec.extractLsb' 17 9 0x8020000#28) = some 0x61#28 := by decide

theorem witness_BareLeafRootIsMalformed : outside (loaded bareLeaf .done).state ∧ memRead bareLeaf 0#9 = some 0x7A#28 ∧
    BitVec.getLsbD 0x7A#28 27 = false ∧ BitVec.getLsbD 0x7A#28 26 = false ∧
    sees (exec .start (loaded bareLeaf .done)) (fun t => t.state == .run) = true :=
  ⟨.inr (.inl rfl), by decide, rfl, rfl, by decide⟩

theorem witness_UnwrittenEntryFaults : memRead (loaded [] .run).nodeMem 0#9 = none ∧
    (memRead [(0, 0xC020200#28)] 0#9 = some 0xC020200#28 ∧ selects 0x30#8 0xC020200#28 1#9 ∧
      memRead [(0, 0xC020200#28)] 1#9 = none) ∧
    step { loaded abb .idle with host := [.read 0x8#4] } = .fault (.unwrittenNode 3#9) ∧
    step (given (loaded [] .run) 0x50000030#32) = .fault (.unwrittenNode 0#9) ∧
    sees (step (given { loaded abb .idle with naddr := 2#9 } 0x20000078#32))
      (fun t => memRead t.nodeMem 1#9 == memRead abb 1#9 && memRead t.nodeMem 2#9 == some 0x78#28) = true :=
  ⟨by decide, ⟨by decide, .inl ⟨rfl, rfl, rfl⟩, by decide⟩, rfl, rfl, by decide⟩

/-- ErrorRecordNamesItsCause, FinishAwayFromRootIsIncomplete, WrongStateRaisesStateViolation and ErrorsArePrecise: an accepted
command that raises each of the five errors. -/
theorem witness_raised :
    ∀ c ∈ [(0x50000032#32, loaded abb .run, ErrCode.invalidBit), (0x50000031#32, loaded wrapper .run, .malformed),
        (0x60000000#32, inside, .incomplete), (0xF0000000#32, loaded abb .idle, .illegalCommand),
        (0x40000000#32, fullRun, .stateViolation)],
      c.2.1.state ≠ .error ∧ sees (stepCommand c.1 c.2.1) (fun t => t.state == .error && t.errCode == c.2.2) = true := by decide

theorem witness_WrongStateRaisesStateViolation : decode 0x60000000#32 = .ok .finish ∧ violates .finish (loaded abb .idle).state ∧
    violates (.bit 0x30#8) (loaded abb .done).state ∧ violates .start fullRun.state ∧
    violates (.wnode 0#28) (loaded abb .skip).state := ⟨rfl, .inl rfl, .inr rfl, .inl rfl, .inr rfl⟩

/-- FirstErrorWins and LeavingErrorState: in ERROR, a step that keeps the record and the three that clear it. -/
theorem witness_in_error : failed.state = .error ∧ wordLegal 0x80000000#32 = false ∧
    sees (step (given failed 0x80000000#32)) (fun t => t.errCode == .invalidBit && t.errData == 0x32#32) = true ∧
    sees (step (given failed 0x40000000#32)) (fun t => t.state == .run) = true ∧
    sees (step (given failed 0x70000000#32)) (fun t => t.state == .idle) = true ∧
    sees (step (driven failed resetPins)) (fun t => t.state == .idle) = true := by decide

/-- OnlyListedRulesWriteState and SessionEndsOnlyByListedEvents: a step for each clause. -/
theorem witness_state_changes :
    sees (step (driven fullRun resetPins)) (fun t => t.state == .idle && !t.active) = true ∧
    sees (step (given (loaded abb .done) 0x40000000#32)) (fun t => t.state == .run) = true ∧
    sees (step (given fullRun 0x60000000#32)) (fun t => t.state == .done && !t.active) = true ∧
    sees (step (given fullRun 0x70000000#32)) (fun t => t.state == .idle && !t.active) = true ∧
    sees (step (given fullRun 0x80000000#32)) (fun t => t.state == .error && !t.active) = true ∧ fullRun.active = true := by
  decide

/-- OnlyListedRulesWriteCur: a step for each clause. -/
theorem witness_cur_changes :
    sees (step (driven inside resetPins)) (fun t => t.cur == 0#9) = true ∧
    sees (step (given { inside with state := .error } 0x40000000#32)) (fun t => t.cur == 0#9) = true ∧
    sees (step (given inside 0x70000000#32)) (fun t => t.cur == 0#9) = true ∧
    sees (step (given (loaded abc .run) 0x50000030#32)) (fun t => t.cur == 1#9) = true ∧
    sees (step (given inside 0x50000030#32)) (fun t => t.cur == 0#9 && t.fifo == [0x61#8]) = true := by decide

/-- OnlySetrootAndResetWriteRoot and OnlyListedRulesWriteNaddr: a step for each clause. -/
theorem witness_root_and_naddr_changes :
    sees (step (given (loaded abb .idle) 0x30000201#32)) (fun t => t.rootValid && t.rootIdx == 1#9) = true ∧
    sees (step (driven (loaded abb .idle) resetPins)) (fun t => !t.rootValid && t.naddr == 0#9) = true ∧
    sees (exec .start (State.resetWith ⟨1, by decide, by decide⟩)) (fun t => t.state == .skip) = true ∧
    sees (step (given fullRun 0x100001FF#32)) (fun t => t.naddr == 511#9) = true ∧
    sees (step (given { loaded abb .done with naddr := 511#9 } 0x20000000#32)) (fun t => t.naddr == 0#9) = true ∧
    sees (exec (.bit 0x30#8) (loaded abb .run)) (fun t => t.naddr == 3#9) = true := by decide

/-- CountersCountUpOrClear, AtMostOneSymbolPerElement, SymbolsLeaveInOrder and TreeFixedDuringSession: a step that pushes, one
that only counts, one that pops, and one that clears. -/
theorem witness_counted :
    sees (step (given (loaded abb .run) 0x50000030#32))
      (fun t => t.fifo == [0x61#8] && t.bitpos == 1#32 && t.symcnt == 1#32 && t.nodeMem == abb) = true ∧
    sees (step (given (loaded abb .skip) 0x500000FF#32)) (fun t => t.bitpos == 1#32 && t.symcnt == 0#32) = true ∧
    sees (step (driven fullRun (pins none true))) (fun t => t.fifo == [0x62#8] && t.symcnt == 2#32) = true ∧
    sees (step (given fullRun 0x70000000#32)) (fun t => t.fifo == [] && t.bitpos == 0#32) = true ∧
    fullRun.symcnt ≤ fullRun.bitpos ∧ fullRun.bitpos ≠ 0xFFFFFFFF#32 := by decide

theorem witness_EveryCommandCompletes : (loaded abb .run).fifo.length ≠ (loaded abb .run).fifoDepth.val ∧
    ∃ n, memRead abb 0#9 = some n ∧ ∀ j, selects 0x30#8 n j → ∃ m, memRead abb j = some m := by
  refine ⟨by decide, _, rfl, ?_⟩
  rintro j (⟨_, _, rfl⟩ | ⟨h, _⟩)
  · exact ⟨0x61#28, rfl⟩
  · exact absurd h (by decide)

theorem witness_StepKeepsInvariant : fullRun.Inv ∧ failed.Inv ∧
    sees (step (given fullRun 0x60000000#32)) (fun t => t.state == .done) = true :=
  ⟨⟨by decide, by decide, by decide, by decide, by decide, by decide⟩,
   ⟨by decide, by decide, by decide, by decide, by decide, by decide⟩, by decide⟩

/-- FIFO_DEPTH is 2: the third BIT is held, held again while a pop makes room, and then accepted; reads stand among the edges. -/
def held011 : List HostStep :=
  [.edge (pins (some 0x50000030#32) false), .edge (pins none false), .edge (pins (some 0x50000031#32) false), .read 0x8#4,
   .edge (pins (some 0x50000031#32) false), .edge (pins (some 0x50000031#32) true), .edge (pins (some 0x50000031#32) false),
   .read 0x0#4, .edge (pins (some 0x60000000#32) true)]

theorem witness_SessionRun : SessionRun { loaded abb .done with naddr := 0#9, fifo := [0x78#8] } true held011 [0x30#8, 0x31#8, 0x31#8] where
  closed   := .inr (.inl rfl)
  noReset  := by
    intro p h
    simp only [held011, List.mem_cons, HostStep.edge.injEq, reduceCtorEq, List.not_mem_nil, or_false, false_or] at h
    rcases h with rfl | rfl | rfl | rfl | rfl | rfl | rfl <;> rfl
  readable := fun _ => ⟨_, rfl⟩
  accepted := by decide

theorem witness_SessionComputesDecode :
    rootIs { loaded abb .done with naddr := 0#9, fifo := [0x78#8] } (some (.both (.leaf 0x61#8) (.leaf 0x62#8))) ∧
    decodeBits [0x30#8, 0x31#8, 0x31#8] (some (.both (.leaf 0x61#8) (.leaf 0x62#8))) = .ok [0x61#8, 0x62#8, 0x62#8] ∧
    decodeBits [0x32#8] (some (.both (.leaf 0x61#8) (.leaf 0x62#8))) = .error .invalidBit ∧ rootIs State.reset none :=
  ⟨⟨rfl, _, rfl, rfl, rfl, ⟨_, rfl, rfl, rfl, rfl⟩, ⟨_, rfl, rfl, rfl, rfl⟩⟩, rfl, rfl, rfl⟩

/-- The edges that send "0" and FINISH. -/
def edges0 : List HostStep := [.edge (pins (some 0x50000030#32) false), .edge (pins (some 0x60000000#32) false)]

/-- CodesDecodeToTheirMessage: "abb" on T_abb whole (the run of witness_SessionRun), and on T_abc the empty message followed by a
proper prefix of a's code. -/
theorem witness_CodesDecodeToTheirMessage :
    (CodeTree.both (.leaf 0x61#8) (.leaf 0x62#8)).meetsD0 = true ∧
    (∀ c ∈ [(0x61#8, [0x30#8]), (0x62#8, [0x31#8]), (0x62#8, [0x31#8])],
      c ∈ (CodeTree.both (.leaf 0x61#8) (.leaf 0x62#8)).codes) ∧
    codeElems [(0x61#8, [0x30#8]), (0x62#8, [0x31#8]), (0x62#8, [0x31#8])] = [0x30#8, 0x31#8, 0x31#8] ∧
    (rootIs (loaded abc .done) (some (.both (.both (.leaf 0x61#8) (.leaf 0x62#8)) (.leaf 0x63#8))) ∧
      (CodeTree.both (.both (.leaf 0x61#8) (.leaf 0x62#8)) (.leaf 0x63#8)).meetsD0 = true ∧
      (0x61#8, [0x30#8, 0x30#8]) ∈ (CodeTree.both (.both (.leaf 0x61#8) (.leaf 0x62#8)) (.leaf 0x63#8)).codes ∧
      [0x30#8] <+: [0x30#8, 0x30#8] ∧ [0x30#8] ≠ [0x30#8, 0x30#8] ∧
      SessionRun (loaded abc .done) false edges0 (codeElems [] ++ [0x30#8])) :=
  ⟨by decide, by decide, by decide,
   ⟨rfl, _, rfl, rfl, rfl, ⟨_, rfl, rfl, rfl, ⟨_, rfl, rfl, rfl, rfl⟩, ⟨_, rfl, rfl, rfl, rfl⟩⟩, ⟨_, rfl, rfl, rfl, rfl⟩⟩,
   by decide, by decide, by decide, by decide,
   { closed := .inr (.inl rfl)
     noReset := by
       intro p h
       simp only [edges0, List.mem_cons, HostStep.edge.injEq, List.not_mem_nil, or_false] at h
       rcases h with rfl | rfl <;> rfl
     readable := fun h => absurd h (by decide)
     accepted := by decide }⟩

end Sys2Proof.Tests
end

section
/-!
PROOFS. A session computes D0's decode (spec/00_scope.md R17, log 14). The walk through the tree in node memory is simulated by
`decodeFrom`: `Awaits words out s` says that HDEC at `s` has the words `words` still to accept and the outcome `out` still to
deliver. Each edge and each read of the session keeps that, and at the end of the host's script no word is left.
-/
namespace Sys2Proof.Machine

/-! ### Accepting the words of a session -/

theorem decode_encode_bit (e : Elem) : decode (encode (.bit e)) = .ok (.bit e) := by
  have hres : (encode (.bit e)).extractLsb' 8 20 = 0#20 := by
    ext j hj
    simp only [encode, BitVec.getElem_extractLsb', BitVec.getLsbD_append]
    simp [hj]
  have helem : (encode (.bit e)).extractLsb' 0 8 = e := by
    ext j hj
    simp only [encode, BitVec.getElem_extractLsb', BitVec.getLsbD_append]
    simp [hj]
  unfold decode
  rw [Laws.EncodedOpcode.bit e, hres, helem]
  rfl

theorem decode_encode_start : decode (encode .start) = .ok .start := rfl

theorem decode_encode_finish : decode (encode .finish) = .ok .finish := rfl

theorem exec_start_outside {s : State} (h : outside s.state) :
    exec .start s = .next ((s.clearSession.setCur s.rootIdx).setState (openState s.rootValid)) :=
  guarded_execute _ (by obtain h | h | h := h <;> simp [verdict, h])

theorem exec_bit_skip {s : State} (e : Elem) (h : s.state = .skip) : exec (.bit e) s = .next s.countElement :=
  (guarded_execute _ (by simp [verdict, h])).trans (if_pos h)

theorem exec_finish_done {s : State} (ha : s.state = .run ∨ s.state = .skip) (h : s.state = .skip ∨ s.cur = s.rootIdx) :
    exec .finish s = .next (s.setState .done) :=
  (guarded_execute _ (by obtain ha | ha := ha <;> simp [verdict, ha])).trans (if_pos h)

theorem exec_finish_incomplete {s : State} (hr : s.state = .run) (h : s.cur ≠ s.rootIdx) :
    exec .finish s = .next (s.raise .incomplete (finishErrData s.cur)) :=
  (guarded_execute _ (by simp [verdict, hr])).trans (if_neg (by simp [hr, h]))

/-- In ERROR the rest of a session's words are discarded (R128). -/
theorem exec_error {s : State} {i : Instr} (hs : s.state = .error) (hi : i = .finish ∨ ∃ e, i = .bit e) :
    exec i s = .next s := by
  have hv : verdict i s.state = .discard := (verdict_discard_iff _ _).2 ⟨hs, hi⟩
  obtain rfl | ⟨e, rfl⟩ := hi
  · exact guarded_discard _ hv
  · exact guarded_discard _ hv

/-- A word is held only where it is a BIT's and FIFO is full in RUN (R148). -/
theorem holds_eq_false_iff {w : Word32} {s : State} :
    holds w s = false ↔ (s.state = .run → opcodeOf w = 0x5#4 → s.fifo.length ≠ s.fifoDepth.val) := by
  simp only [holds, fifoFull, fifoCount, Bool.and_eq_false_iff, beq_eq_false_iff_ne]
  tauto

/-- A pop makes no FIFO full, so what was not held before it is not held after it. -/
theorem PopOf.holds {s s' : State} {w : Word32} (h : PopOf s s')
    (hb : s.state = .run → s.fifo.length ≤ s.fifoDepth.val) (hw : holds w s = false) : holds w s' = false := by
  rw [holds_eq_false_iff] at hw ⊢
  intro hr hop
  obtain ⟨k, -, -, hf⟩ := h.popped
  rw [h.state] at hr
  rw [hf, h.fifoDepth, List.length_drop]
  have hle := hb hr
  have hne := hw hr hop
  omega

/-! ### The tree in node memory -/

/-- What a walk reads at a node of the tree: its children are the node word's. -/
theorem holdsTree_child {m : NodeMem} {t : CodeTree} {i : NodeIdx} (h : holdsTree m t i) :
    ∃ n, memRead m i = some n ∧ (∀ b, t.child b = none → nodeChild n b = none) ∧
      ∀ b c, t.child b = some c → ∃ j, nodeChild n b = some j ∧ holdsTree m c j := by
  cases t with
  | leaf y =>
    obtain ⟨n, hn, hl, hr, -⟩ := h
    exact ⟨n, hn, by simp [nodeChild, hl, hr], by simp [CodeTree.child]⟩
  | leftOnly l =>
    obtain ⟨n, hn, hl, hr, ht⟩ := h
    exact ⟨n, hn, by simp [CodeTree.child, nodeChild, hr], by simp [CodeTree.child, nodeChild, hl, ht]⟩
  | rightOnly r =>
    obtain ⟨n, hn, hl, hr, ht⟩ := h
    exact ⟨n, hn, by simp [CodeTree.child, nodeChild, hl], by simp [CodeTree.child, nodeChild, hr, ht]⟩
  | both l r =>
    obtain ⟨n, hn, hl, hr, htl, htr⟩ := h
    exact ⟨n, hn, by simp [CodeTree.child], by simp [CodeTree.child, nodeChild, hl, hr, htl, htr]⟩

theorem holdsTree_leaf {m : NodeMem} {y : Symb} {i : NodeIdx} (h : holdsTree m (.leaf y) i) :
    ∃ n, memRead m i = some n ∧ isLeaf n = true ∧ nodeSym n = y := by
  obtain ⟨n, hn, hl, hr, hy⟩ := h
  exact ⟨n, hn, by simp [isLeaf, hl, hr], hy⟩

theorem holdsTree_not_leaf {m : NodeMem} {t : CodeTree} {i : NodeIdx} (h : holdsTree m t i) (ht : ∀ y, t ≠ .leaf y) :
    ∃ n, memRead m i = some n ∧ isLeaf n = false := by
  cases t with
  | leaf y => exact absurd rfl (ht y)
  | leftOnly l =>
    obtain ⟨n, hn, hl, -⟩ := h
    exact ⟨n, hn, by simp [isLeaf, hl]⟩
  | rightOnly r =>
    obtain ⟨n, hn, -, hr, -⟩ := h
    exact ⟨n, hn, by simp [isLeaf, hr]⟩
  | both l r =>
    obtain ⟨n, hn, hl, -⟩ := h
    exact ⟨n, hn, by simp [isLeaf, hl]⟩

/-- Node memory holds at most one tree at an index: LV and RV of its node word say which constructor it is, and the subtrees
are those at LEFT and RIGHT. -/
theorem holdsTree_unique {m : NodeMem} {t u : CodeTree} {i : NodeIdx} (ht : holdsTree m t i) (hu : holdsTree m u i) :
    t = u := by
  induction t generalizing u i with
  | leaf y => cases u <;> grind [holdsTree]
  | leftOnly l ih => cases u <;> grind [holdsTree]
  | rightOnly r ih => cases u <;> grind [holdsTree]
  | both l r ihl ihr => cases u <;> grind [holdsTree]

theorem CodeTree.sizeOf_child_lt {t c : CodeTree} {b : Bool} (h : t.child b = some c) : sizeOf c < sizeOf t := by
  cases t with
  | leaf y => simp [child] at h
  | leftOnly l =>
    obtain ⟨-, rfl⟩ : b = false ∧ l = c := by simpa [child] using h
    simp
  | rightOnly r =>
    obtain ⟨-, rfl⟩ : b = true ∧ r = c := by simpa [child] using h
    simp
  | both l r =>
    have hc : c = l ∨ c = r := by cases b <;> simp_all [child]
    obtain rfl | rfl := hc
    · simp
      omega
    · simp

/-- The walk of `s` stands where D0's current pointer does: at the root, or at a proper subtree of `root`. -/
def standsAt (s : State) (root : CodeTree) : Option CodeTree → Prop
  | none => s.cur = s.rootIdx
  | some t => holdsTree s.nodeMem t s.cur ∧ sizeOf t < sizeOf root

/-! ### D0's decode, one element at a time -/

theorem decodeFrom_invalid {root : CodeTree} {p : Option CodeTree} {e : Elem} {es : List Elem} (hb : bitOf e = none) :
    decodeFrom root p (e :: es) = .error .invalidBit := by
  rw [decodeFrom, hb]

theorem decodeFrom_absent {root : CodeTree} {p : Option CodeTree} {e : Elem} {es : List Elem} {b : Bool}
    (hb : bitOf e = some b) (hc : (p.getD root).child b = none) :
    decodeFrom root p (e :: es) = .error .malformed := by
  simp only [decodeFrom, hb, hc]

theorem decodeFrom_leaf {root : CodeTree} {p : Option CodeTree} {e : Elem} {es : List Elem} {b : Bool} {y : Symb}
    (hb : bitOf e = some b) (hc : (p.getD root).child b = some (.leaf y)) :
    decodeFrom root p (e :: es) = (decodeFrom root none es).map (y :: ·) := by
  simp only [decodeFrom, hb, hc]

theorem decodeFrom_node {root t : CodeTree} {p : Option CodeTree} {e : Elem} {es : List Elem} {b : Bool}
    (hb : bitOf e = some b) (hc : (p.getD root).child b = some t) (ht : ∀ y, t ≠ .leaf y) :
    decodeFrom root p (e :: es) = decodeFrom root (some t) es := by
  cases t with
  | leaf y => exact absurd rfl (ht y)
  | leftOnly l => simp only [decodeFrom, hb, hc]
  | rightOnly r => simp only [decodeFrom, hb, hc]
  | both l r => simp only [decodeFrom, hb, hc]

/-! ### What is still to come in a session -/

/-- The words a session accepts after START: one BIT for each element, and FINISH (R17). -/
def elementWords (bits : List Elem) : List Word32 := bits.map (fun e => encode (.bit e)) ++ [encode .finish]

/-- The word of a BIT or of FINISH: in ERROR it is discarded (R128). -/
def sessionWord (w : Word32) : Prop := ∃ i, (i = .finish ∨ ∃ e, i = .bit e) ∧ decode w = .ok i

theorem sessionWord_of_mem_elementWords {bits : List Elem} {w : Word32} (h : w ∈ elementWords bits) : sessionWord w := by
  obtain ⟨e, -, rfl⟩ | rfl : (∃ e ∈ bits, encode (.bit e) = w) ∨ w = encode .finish := by
    simpa [elementWords] using h
  · exact ⟨.bit e, .inr ⟨e, rfl⟩, decode_encode_bit e⟩
  · exact ⟨.finish, .inl rfl, decode_encode_finish⟩

/-- HDEC at `s` is in RUN on the tree `root`, standing where D0's current pointer `p` does. -/
structure Walks (s : State) (root : CodeTree) (p : Option CodeTree) : Prop where
  run      : s.state = .run
  fifo_le  : s.fifo.length ≤ s.fifoDepth.val
  tree     : holdsTree s.nodeMem root s.rootIdx
  position : standsAt s root p

/-- CUR is where the tree of the current pointer is held. -/
theorem Walks.holdsTree_cur {s : State} {root : CodeTree} {p : Option CodeTree} (h : Walks s root p) :
    holdsTree s.nodeMem (p.getD root) s.cur ∧ sizeOf (p.getD root) ≤ sizeOf root := by
  obtain ⟨-, -, htree, hpos⟩ := h
  cases p with
  | none =>
    have hcur : s.cur = s.rootIdx := hpos
    exact ⟨by simpa [hcur] using htree, le_rfl⟩
  | some t => exact ⟨hpos.1, hpos.2.le⟩

/-- Away from the root CUR differs from ROOT_IDX: the tree held there is a smaller one. -/
theorem Walks.cur_ne_rootIdx {s : State} {root t : CodeTree} (h : Walks s root (some t)) : s.cur ≠ s.rootIdx := by
  obtain ⟨-, -, htree, ht, hlt⟩ := h
  intro he
  rw [he] at ht
  rw [holdsTree_unique ht htree] at hlt
  exact lt_irrefl _ hlt

/-- The walk depends on no field that a pop changes but FIFO, which gets no longer. -/
theorem Walks.of_eq {s s' : State} {root : CodeTree} {p : Option CodeTree} (h : Walks s root p)
    (hs : s'.state = s.state) (hcur : s'.cur = s.cur) (hidx : s'.rootIdx = s.rootIdx) (hmem : s'.nodeMem = s.nodeMem)
    (hdepth : s'.fifoDepth = s.fifoDepth) (hlen : s'.fifo.length ≤ s.fifo.length) : Walks s' root p := by
  obtain ⟨hr, hle, htree, hpos⟩ := h
  refine ⟨hs.trans hr, by rw [hdepth]; omega, by rwa [hmem, hidx], ?_⟩
  cases p with
  | none => exact hcur.trans (Eq.trans hpos hidx.symm)
  | some t => exact ⟨by rw [hmem, hcur]; exact hpos.1, hpos.2⟩

/-- HDEC at `s` has the words `words` of a session still to accept, and `out` is what decode still gives. -/
inductive Awaits : List Word32 → Except ErrCode (List Symb) → State → Prop where
  | skip {s} (bits) : s.state = .skip → Awaits (elementWords bits) (.ok []) s
  | walk {s root p} (bits) : Walks s root p → Awaits (elementWords bits) (decodeFrom root p bits) s
  | done {s} : s.state = .done → Awaits [] (.ok []) s
  | failed {s words} : s.state = .error → (∀ w ∈ words, sessionWord w) →
      Awaits words (.error s.errCode) s

/-- From `s` to `t` NADDR and node memory are kept, `ys` has been pushed, and what left FIFO went to the host (R110). -/
structure Moves (s t : State) (ys : List Symb) : Prop where
  host    : t.host = s.host
  naddr   : t.naddr = s.naddr
  nodeMem : t.nodeMem = s.nodeMem
  flow    : ∃ popped, t.gotSymbols = s.gotSymbols ++ popped ∧ popped ++ t.fifo = s.fifo ++ ys

/-- The answer `a` of HDEC at `s` goes on to a state that awaits `words`, with what it pushes being the first part of `out`. -/
def Proceeds (a : Answer) (s : State) (words : List Word32) (out : Except ErrCode (List Symb)) : Prop :=
  ∃ t ys out', a = .next t ∧ Moves s t ys ∧ out = out'.map (ys ++ ·) ∧ Awaits words out' t

/-! ### One command of a session -/

theorem moves_of_eq {s t : State} {ys : List Symb} (hh : t.host = s.host) (ha : t.naddr = s.naddr)
    (hm : t.nodeMem = s.nodeMem) (hr : t.received = s.received) (hf : t.fifo = s.fifo ++ ys) : Moves s t ys :=
  ⟨hh, ha, hm, [], by simp [State.gotSymbols, hr], hf⟩

/-- A command that pushes nothing and leaves the same outcome to come. -/
theorem proceeds_next {s t : State} {words : List Word32} {out : Except ErrCode (List Symb)} (hm : Moves s t [])
    (h : Awaits words out t) : Proceeds (.next t) s words out :=
  ⟨t, [], out, rfl, hm, by cases out <;> rfl, h⟩

/-- After error entry the session's outcome is that error, whatever words are left. -/
theorem proceeds_raise {s : State} (code : ErrCode) (data : Word32) {words : List Word32}
    (h : ∀ w ∈ words, sessionWord w) :
    Proceeds (.next (s.raise code data)) s words (.error code) :=
  proceeds_next (moves_of_eq rfl rfl rfl rfl (by simp)) (.failed (s := s.raise code data) rfl h)

/-- Arriving at the child that holds a leaf delivers its symbol, and the walk is back at the root (R100). -/
theorem proceeds_arriveAt_leaf {s : State} {root : CodeTree} {p : Option CodeTree} {y : Symb} {j : NodeIdx}
    (bits : List Elem) (h : Walks s root p) (hlt : s.fifo.length < s.fifoDepth.val) (hj : holdsTree s.nodeMem (.leaf y) j) :
    Proceeds (arriveAt j s) s (elementWords bits) ((decodeFrom root none bits).map (y :: ·)) := by
  obtain ⟨m, hm, hl, rfl⟩ := holdsTree_leaf hj
  refine ⟨((s.pushSymbol (nodeSym m)).setCur s.rootIdx).countElement, [nodeSym m], decodeFrom root none bits, ?_,
    moves_of_eq rfl rfl rfl rfl rfl, rfl, ?_⟩
  · simp [arriveAt, withNode_some _ hm, hl]
  · exact .walk bits ⟨h.run, by simpa using hlt, h.tree, rfl⟩

/-- Arriving at the child that holds a smaller tree, the walk stands there (R100). -/
theorem proceeds_arriveAt_node {s : State} {root t : CodeTree} {p : Option CodeTree} {j : NodeIdx} (bits : List Elem)
    (h : Walks s root p) (hj : holdsTree s.nodeMem t j) (hlt : sizeOf t < sizeOf root) (ht : ∀ y, t ≠ .leaf y) :
    Proceeds (arriveAt j s) s (elementWords bits) (decodeFrom root (some t) bits) := by
  obtain ⟨m, hm, hl⟩ := holdsTree_not_leaf hj ht
  have hnext : arriveAt j s = .next (s.setCur j).countElement := by simp [arriveAt, withNode_some _ hm, hl]
  rw [hnext]
  exact proceeds_next (moves_of_eq rfl rfl rfl rfl (by simp)) (.walk bits ⟨h.run, h.fifo_le, h.tree, hj, hlt⟩)

/-- A BIT that is not held does what decode does with its element. -/
theorem proceeds_walkBit {s : State} {root : CodeTree} {p : Option CodeTree} (e : Elem) (bits : List Elem)
    (h : Walks s root p) (hlt : s.fifo.length < s.fifoDepth.val) :
    Proceeds (walkBit e s) s (elementWords bits) (decodeFrom root p (e :: bits)) := by
  have hfull : fifoFull s = false := by simp [fifoFull, fifoCount, hlt.ne]
  have hwords : ∀ w ∈ elementWords bits, sessionWord w := fun _ => sessionWord_of_mem_elementWords
  obtain ⟨hcur, hle⟩ := h.holdsTree_cur
  obtain ⟨n, hn, habsent, hpresent⟩ := holdsTree_child hcur
  cases hb : bitOf e with
  | none =>
    rw [decodeFrom_invalid hb]
    simpa [walkBit, hfull, hb] using proceeds_raise .invalidBit (elemErrData s.cur e) hwords
  | some b =>
    have hwalk : walkBit e s = descend e b s := by simp [walkBit, hfull, hb]
    rw [hwalk, descend, withNode_some _ hn]
    cases hc : (p.getD root).child b with
    | none =>
      rw [decodeFrom_absent hb hc, habsent b hc]
      exact proceeds_raise .malformed (elemErrData s.cur e) hwords
    | some t =>
      obtain ⟨j, hj, htree⟩ := hpresent b t hc
      rw [hj]
      by_cases ht : ∀ y, t ≠ .leaf y
      · rw [decodeFrom_node hb hc ht]
        exact proceeds_arriveAt_node bits h htree ((CodeTree.sizeOf_child_lt hc).trans_le hle) ht
      · obtain ⟨y, rfl⟩ : ∃ y, t = .leaf y := by simpa using ht
        rw [decodeFrom_leaf hb hc]
        exact proceeds_arriveAt_leaf bits h hlt htree

/-- FINISH in RUN ends the session as decode ends at the end of the bits (R93). -/
theorem proceeds_finish_walk {s : State} {root : CodeTree} {p : Option CodeTree} (h : Walks s root p) :
    Proceeds (exec .finish s) s [] (decodeFrom root p []) := by
  cases p with
  | none =>
    rw [exec_finish_done (.inl h.run) (.inr h.position), decodeFrom]
    exact proceeds_next (moves_of_eq rfl rfl rfl rfl (by simp)) (.done rfl)
  | some t =>
    rw [exec_finish_incomplete h.run h.cur_ne_rootIdx, decodeFrom]
    exact proceeds_raise .incomplete (finishErrData s.cur) (by simp)

/-- The next word of a session, once it is not held, takes the session one word on. -/
theorem Awaits.proceeds {s : State} {w : Word32} {ws words : List Word32} {out : Except ErrCode (List Symb)}
    (h : Awaits words out s) (hw : words = w :: ws) (hheld : holds w s = false) :
    Proceeds (stepCommand w s) s ws out := by
  cases h with
  | skip bits hs =>
    cases bits with
    | nil =>
      obtain ⟨rfl, rfl⟩ := List.cons.inj hw
      rw [stepCommand_ok s decode_encode_finish, exec_finish_done (.inr hs) (.inl hs)]
      exact proceeds_next (moves_of_eq rfl rfl rfl rfl (by simp)) (.done rfl)
    | cons e bits =>
      obtain ⟨rfl, rfl⟩ := List.cons.inj hw
      rw [stepCommand_ok s (decode_encode_bit e), exec_bit_skip e hs]
      exact proceeds_next (moves_of_eq rfl rfl rfl rfl (by simp)) (.skip bits hs)
  | walk bits hwalk =>
    cases bits with
    | nil =>
      obtain ⟨rfl, rfl⟩ := List.cons.inj hw
      rw [stepCommand_ok s decode_encode_finish]
      exact proceeds_finish_walk hwalk
    | cons e bits =>
      obtain ⟨rfl, rfl⟩ := List.cons.inj hw
      have hne := holds_eq_false_iff.1 hheld hwalk.run (Laws.EncodedOpcode.bit e)
      rw [stepCommand_ok s (decode_encode_bit e), exec_bit_run hwalk.run]
      exact proceeds_walkBit e bits hwalk (lt_of_le_of_ne hwalk.fifo_le hne)
  | done => cases hw
  | failed hs hwords =>
    subst hw
    obtain ⟨i, hi, hd⟩ := hwords w (by simp)
    rw [stepCommand_ok s hd, exec_error hs hi]
    exact proceeds_next (moves_of_eq rfl rfl rfl rfl (by simp)) (.failed hs fun v hv => hwords v (by simp [hv]))

/-! ### One step of a session -/

theorem Awaits.fifo_le {s : State} {words : List Word32} {out : Except ErrCode (List Symb)} (h : Awaits words out s)
    (hr : s.state = .run) : s.fifo.length ≤ s.fifoDepth.val := by
  cases h with
  | walk bits hwalk => exact hwalk.fifo_le
  | skip bits hs => simp [hr] at hs
  | done hs => simp [hr] at hs
  | failed hs hwords => simp [hr] at hs

/-- A pop changes nothing of what a session awaits (R114). -/
theorem Awaits.popOf {s s' : State} {words : List Word32} {out : Except ErrCode (List Symb)} (h : Awaits words out s)
    (hp : PopOf s s') : Awaits words out s' := by
  cases h with
  | skip bits hs => exact .skip bits (hp.state.trans hs)
  | walk bits hwalk =>
    obtain ⟨k, -, -, hf⟩ := hp.popped
    exact .walk bits (hwalk.of_eq hp.state hp.cur hp.rootIdx hp.nodeMem hp.fifoDepth (by simp [hf]))
  | done hs => exact .done (hp.state.trans hs)
  | failed hs hwords =>
    rw [← hp.errCode]
    exact .failed (hp.state.trans hs) hwords

/-- A read changes nothing of what a session awaits (R113). -/
theorem Awaits.receive {s : State} {words : List Word32} {out : Except ErrCode (List Symb)} (g : HostGot)
    (h : Awaits words out s) : Awaits words out (s.receive g) := by
  cases h with
  | skip bits hs => exact .skip bits hs
  | walk bits hwalk => exact .walk bits (hwalk.of_eq rfl rfl rfl rfl rfl le_rfl)
  | done hs => exact .done hs
  | failed hs hwords => exact .failed (s := s.receive g) hs hwords

theorem moves_receive (s : State) (a : RdAddr) (v : Word32) : Moves s (s.receive (.data a v)) [] :=
  ⟨rfl, rfl, rfl, [], by simp, by simp⟩

theorem moves_popEdge (p : PortIn) (s : State) : Moves s (popEdge p s) [] := by
  have h : PopOf s (popEdge p s) := popOf_popEdge p s s.host
  obtain ⟨ys, -, hg, hf⟩ := h.gotSymbols
  refine ⟨?_, h.naddr, h.nodeMem, ys, hg, by simpa using hf⟩
  unfold popEdge
  split <;> simp

theorem Moves.trans {s t u : State} {xs ys : List Symb} (h₁ : Moves s t xs) (h₂ : Moves t u ys) :
    Moves s u (xs ++ ys) := by
  obtain ⟨hh₁, ha₁, hm₁, p, hg₁, hf₁⟩ := h₁
  obtain ⟨hh₂, ha₂, hm₂, q, hg₂, hf₂⟩ := h₂
  refine ⟨hh₂.trans hh₁, ha₂.trans ha₁, hm₂.trans hm₁, p ++ q, by rw [hg₂, hg₁, List.append_assoc], ?_⟩
  rw [List.append_assoc, hf₂, ← List.append_assoc, hf₁, List.append_assoc]

theorem exists_rdData {a : RdAddr} {s : State} (h : a = 0x8#4 → ∃ n, memRead s.nodeMem s.naddr = some n) :
    ∃ v, rdData a s = some v := by
  unfold rdData
  split
  case h_9 h8 =>
    obtain ⟨n, hn⟩ := h (BitVec.eq_of_toNat_eq h8)
    exact ⟨_, by rw [hn]; rfl⟩
  all_goals exact ⟨_, rfl⟩

theorem Proceeds.of_moves {s s' : State} {a : Answer} {words : List Word32} {out : Except ErrCode (List Symb)}
    (hm : Moves s s' []) (h : Proceeds a s' words out) : Proceeds a s words out := by
  obtain ⟨t, ys, out', ha, hm', ho, hw⟩ := h
  exact ⟨t, ys, out', ha, hm.trans hm', ho, hw⟩

/-- One edge or read of a session: `words` begins with the word it accepts, if it accepts one. -/
theorem Awaits.step {s : State} {x : HostStep} {rest : List HostStep} {words ws : List Word32}
    {out : Except ErrCode (List Symb)} (h : Awaits words out s) (hhost : s.host = x :: rest)
    (hrst : ∀ p, x = .edge p → p.rst = false)
    (hread : x = .read 0x8#4 → ∃ n, memRead s.nodeMem s.naddr = some n)
    (hw : words = (acceptedWord s).toList ++ ws) : Proceeds (step s) (s.setHost rest) ws out := by
  cases x with
  | read a =>
    have hnone : acceptedWord s = none := by simp [acceptedWord, hhost]
    obtain rfl : words = ws := by simpa [hnone] using hw
    obtain ⟨v, hv⟩ := exists_rdData (s := s) (a := a) fun ha => hread (by rw [ha])
    have hstep : Machine.step s = .next ((s.setHost rest).receive (.data a v)) := by
      simp [step_cons hhost, hostStep, readRegister, hv]
    rw [hstep]
    exact proceeds_next (moves_receive _ a v) ((h.popOf (popOf_setHost s rest)).receive _)
  | edge p =>
    have hpop : PopOf s (popEdge p (s.setHost rest)) := popOf_popEdge p s rest
    cases ha : accepts p s with
    | false =>
      obtain rfl : words = ws := by simpa [acceptedWord_edge hhost, ha] using hw
      rw [step_no_accept hhost (hrst p rfl) ha]
      exact proceeds_next (moves_popEdge p _) (h.popOf hpop)
    | true =>
      have hw : words = p.cmdData :: ws := by simpa [acceptedWord_edge hhost, ha] using hw
      have hheld : holds p.cmdData s = false := ((accepts_iff p s).1 ha).2.2
      rw [step_accept hhost ha]
      exact ((h.popOf hpop).proceeds hw (hpop.holds h.fifo_le hheld)).of_moves (moves_popEdge p _)

/-! ### A whole session -/

/-- A session that delivered `ys` has ended in `t` as `out` says: in DONE with the message, or in ERROR with its code. -/
def endsAs : Except ErrCode (List Symb) → State → List Symb → Prop
  | .ok msg, t, ys => t.state = .done ∧ ys = msg
  | .error code, t, _ => t.state = .error ∧ t.errCode = code

theorem endsAs_map_append {out : Except ErrCode (List Symb)} {t : State} {xs ys : List Symb} (h : endsAs out t ys) :
    endsAs (out.map (xs ++ ·)) t (xs ++ ys) := by
  cases out with
  | ok msg =>
    obtain ⟨hs, rfl⟩ := h
    exact ⟨hs, rfl⟩
  | error code => exact h

/-- With no word left the session has ended. -/
theorem Awaits.endsAs {s : State} {words : List Word32} {out : Except ErrCode (List Symb)} (h : Awaits words out s)
    (hw : words = []) : endsAs out s [] := by
  cases h with
  | skip bits hs => simp [elementWords] at hw
  | walk bits hwalk => simp [elementWords] at hw
  | done hs => exact ⟨hs, rfl⟩
  | failed hs hwords => exact ⟨hs, rfl⟩

theorem Moves.setHost {s t : State} {ys : List Symb} (h : Moves s t ys) (hs : List HostStep) :
    Moves (s.setHost hs) (t.setHost hs) ys :=
  ⟨rfl, h.naddr, h.nodeMem, h.flow⟩

theorem core_run_succ {s t : State} (n : Nat) (h : step s = .next t) : core.run (n + 1) s = core.run n t := by
  have hc : core.step s = .next t := h
  simp only [Host.Core.run, hc]

/-- The session runs to the end of the host's script, and ends as what it awaited says. -/
theorem Awaits.run {hs : List HostStep} {s : State} {out : Except ErrCode (List Symb)} (hhost : s.host = hs)
    (hrst : ∀ p, .edge p ∈ hs → p.rst = false)
    (hread : .read 0x8#4 ∈ hs → ∃ n, memRead s.nodeMem s.naddr = some n)
    (h : Awaits (acceptedWords hs.length s) out s) :
    ∃ t ys, core.run hs.length s = .next t ∧ Moves (s.setHost []) t ys ∧ Machine.endsAs out t ys := by
  induction hs generalizing s out with
  | nil => exact ⟨s, [], rfl, moves_of_eq hhost rfl rfl rfl (by simp), h.endsAs rfl⟩
  | cons x rest ih =>
    obtain ⟨ws, hwords⟩ : ∃ ws, acceptedWords (rest.length + 1) s = (acceptedWord s).toList ++ ws := ⟨_, rfl⟩
    obtain ⟨t, xs, out', hstep, hm, rfl, hnext⟩ := h.step hhost (fun p hx => hrst p (by simp [hx]))
      (fun hx => hread (by simp [hx])) hwords
    obtain rfl : acceptedWords rest.length t = ws :=
      List.append_cancel_left ((acceptedWords_succ _ hstep).symm.trans hwords)
    obtain ⟨u, ys, hrun, hm', hend⟩ := ih hm.host (fun p hp => hrst p (by simp [hp]))
      (fun hr => by rw [hm.nodeMem, hm.naddr]; exact hread (by simp [hr])) hnext
    exact ⟨u, xs ++ ys, (core_run_succ _ hstep).trans hrun, (hm.setHost []).trans hm', endsAs_map_append hend⟩

/-- START opens the session that awaits decode's outcome on the tree at the root (R91). -/
theorem awaits_start {s : State} {root : Option CodeTree} (bits : List Elem) (hroot : rootIs s root) :
    Awaits (elementWords bits) (decodeBits bits root)
      ((s.clearSession.setCur s.rootIdx).setState (openState s.rootValid)) := by
  cases root with
  | none =>
    have hv : s.rootValid = false := hroot
    exact .skip bits (by simp [openState, hv])
  | some tree =>
    obtain ⟨hv, htree⟩ := hroot
    exact .walk bits ⟨by simp [openState, hv], Nat.zero_le _, htree, rfl⟩

theorem PopOf.rootIs {s s' : State} {root : Option CodeTree} (h : PopOf s s') (hroot : rootIs s root) :
    rootIs s' root := by
  cases root with
  | none => exact h.rootValid.trans hroot
  | some tree => exact ⟨h.rootValid.trans hroot.1, by rw [h.nodeMem, h.rootIdx]; exact hroot.2⟩

/-- A pop gives the host the head of FIFO, if there is one (R110). -/
theorem gotSymbols_popEdge {p : PortIn} (s : State) (hr : p.rst = false) :
    (popEdge p s).gotSymbols = s.gotSymbols ++ s.fifo.take p.symReady.toNat := by
  rw [popEdge_eq p s hr]
  cases p.symReady with
  | false => simp
  | true =>
    rw [if_pos rfl, State.gotSymbols, State.popSymbol_received, List.filterMap_append, List.filterMap_map]
    simp [State.gotSymbols]

/-- The pins of the edge at which `State.opening` presents START. -/
abbrev startEdge (pop : Bool) : PortIn := ⟨false, true, encode .start, pop⟩

theorem opening_host (s : State) (pop : Bool) (hs : List HostStep) :
    (s.opening pop hs).host = .edge (startEdge pop) :: hs := rfl

theorem accepts_startEdge (s : State) (pop : Bool) : accepts (startEdge pop) s = true := by
  have hop : opcodeOf (encode .start) ≠ 0x5#4 := by decide
  simp [accepts_iff, holds, hop]

/-- START's own edge: the pop takes from the FIFO before it, and then the new session is open with FIFO empty (R114). -/
theorem step_opening {s : State} {root : Option CodeTree} (bits : List Elem) (pop : Bool) (hs : List HostStep)
    (hclosed : outside s.state) (hroot : rootIs s root) :
    ∃ t, step (s.opening pop hs) = .next t ∧ t.host = hs ∧ t.naddr = s.naddr ∧ t.nodeMem = s.nodeMem ∧ t.fifo = [] ∧
      t.gotSymbols = s.gotSymbols ++ s.fifo.take pop.toNat ∧ Awaits (elementWords bits) (decodeBits bits root) t := by
  have hpop : PopOf (s.opening pop hs) (popEdge (startEdge pop) ((s.opening pop hs).setHost hs)) :=
    popOf_popEdge (startEdge pop) (s.opening pop hs) hs
  have hstep := step_accept (opening_host s pop hs) (accepts_startEdge _ pop)
  rw [stepCommand_ok _ decode_encode_start, exec_start_outside (by rwa [hpop.state])] at hstep
  exact ⟨_, hstep, (moves_popEdge (startEdge pop) _).host, hpop.naddr, hpop.nodeMem, rfl,
    gotSymbols_popEdge ((s.opening pop hs).setHost hs) rfl, awaits_start bits (hpop.rootIs hroot)⟩

/-- Settles O51: the words after START are served one by one as `decodeFrom` consumes the elements. -/
theorem sessionComputesDecode : Obligations.SessionComputesDecode := by
  unfold Obligations.SessionComputesDecode
  intro s root bits pop hs hroot hrun
  obtain ⟨hclosed, hrst, hread, hacc⟩ := hrun
  obtain ⟨t, hstep, hhost, hnaddr, hmem, hfifo, hgot, hawaits⟩ := step_opening bits pop hs hclosed hroot
  have hword : acceptedWord (s.opening pop hs) = some (encode .start) := by
    rw [acceptedWord_edge (opening_host s pop hs), if_pos (accepts_startEdge _ pop)]
  have hwords : acceptedWords hs.length t = elementWords bits := by
    simpa [acceptedWords_succ _ hstep, hword, elementWords] using hacc
  rw [← hwords] at hawaits
  obtain ⟨u, ys, hrun, ⟨huhost, -, -, popped, hpopped, hflow⟩, hend⟩ :=
    hawaits.run hhost hrst (by rwa [hmem, hnaddr])
  have hflow : popped ++ u.fifo = ys := by simpa [hfifo] using hflow
  refine ⟨u, popped, (core_run_succ _ hstep).trans hrun, huhost, by rw [hpopped, ← hgot]; rfl, ?_⟩
  cases hd : decodeBits bits root with
  | ok msg =>
    rw [hd] at hend
    exact ⟨hend.1, hflow.trans hend.2⟩
  | error code =>
    rw [hd] at hend
    exact hend

end Sys2Proof.Machine
end

section
/-!
PROOFS. What one step can do to the registers, with the accepted command named by its own word: a word that decodes is the word
of its command (spec/30_encoding.md R67, R71), and `StepEffect` lists the ways of `step_effect` in those terms.
-/
namespace Sys2Proof.Machine

/-! ### A word that decodes is the word of its command -/

/-- A field and the one below it are one field of the word. -/
theorem extract_append_extract {w : Word32} {lo m n hi : Nat} (h : hi = lo + n) :
    w.extractLsb' hi m ++ w.extractLsb' lo n = w.extractLsb' lo (m + n) :=
  BitVec.extractLsb'_append_extractLsb'_eq_extractLsb' h

theorem opcodeOf_eq {w : Word32} {k : Nat} (h : (opcodeOf w).toNat = k) : BitVec.ofNat 4 k = opcodeOf w := by
  rw [← h, BitVec.ofNat_toNat, BitVec.setWidth_eq]

/-- Formats Z and N: a word is its opcode and its payload (R65, R67). -/
theorem opcode_append_payload {w : Word32} {k : Nat} {p : BitVec 28} (hop : (opcodeOf w).toNat = k)
    (hp : w.extractLsb' 0 28 = p) : BitVec.ofNat 4 k ++ p = w := by
  rw [opcodeOf_eq hop, ← hp, opcodeOf, extract_append_extract (by omega)]
  exact BitVec.extractLsb'_eq_self

/-- Formats A and E: the payload is `m` reserved bits and below them an operand of `n` bits (R67). -/
theorem opcode_append_operand {w : Word32} {k m n : Nat} (h : 28 = n + m) (hop : (opcodeOf w).toNat = k)
    (hres : w.extractLsb' n m = 0#m) :
    BitVec.ofNat 4 k ++ 0#m ++ w.extractLsb' 0 n = w.extractLsb' 0 (4 + m + n) := by
  rw [opcodeOf_eq hop, ← hres, opcodeOf, extract_append_extract h, extract_append_extract (by omega)]

/-- Format R: the payload is reserved bits, RV and IDX (R67). -/
theorem opcode_append_setroot {w : Word32} {k : Nat} (hop : (opcodeOf w).toNat = k)
    (hres : w.extractLsb' 10 18 = 0#18) :
    BitVec.ofNat 4 k ++ 0#18 ++ BitVec.ofBool (w.getLsbD 9) ++ w.extractLsb' 0 9 = w := by
  have hrv : BitVec.ofBool (w.getLsbD 9) = w.extractLsb' 9 1 := by
    ext j hj
    obtain rfl : j = 0 := by omega
    simp
  rw [opcodeOf_eq hop, ← hres, hrv, opcodeOf, extract_append_extract (by omega), extract_append_extract (by omega),
    extract_append_extract (by omega)]
  exact BitVec.extractLsb'_eq_self

theorem ifReservedZero_eq_ok {n : Nat} {res : BitVec n} {i j : Instr} (h : ifReservedZero res i = .ok j) :
    res = 0#n ∧ i = j := by
  unfold ifReservedZero at h
  split at h
  next hres => exact ⟨hres, by simpa using h⟩
  · cases h

theorem encode_of_decode {w : Word32} {i : Instr} (h : decode w = .ok i) : encode i = w := by
  unfold decode at h
  split at h
  case h_1 hop | h_5 hop | h_7 hop | h_8 hop =>
    obtain ⟨hres, rfl⟩ := ifReservedZero_eq_ok h
    exact opcode_append_payload hop hres
  case h_2 hop | h_6 hop =>
    obtain ⟨hres, rfl⟩ := ifReservedZero_eq_ok h
    exact (opcode_append_operand (by decide) hop hres).trans BitVec.extractLsb'_eq_self
  case h_3 hop =>
    cases h
    exact opcode_append_payload hop rfl
  case h_4 hop =>
    obtain ⟨hres, rfl⟩ := ifReservedZero_eq_ok h
    exact opcode_append_setroot hop hres
  case h_9 => cases h

/-! ### The ways of a step -/

/-- What a step that answers `t` has done: `step_effect` with the accepted command named by its own word. -/
inductive StepEffect (s : State) : State → Prop where
  /-- No command: HDEC waited, an edge accepted nothing, or it accepted a word that ERROR discards. -/
  | kept {t} : PopOf s t → StepEffect s t
  | read {a v t} : PopOf s t → StepEffect s (t.receive (.data a v))
  | reset {rest} : resetsNext s = true → StepEffect s (s.setHost rest).applyReset
  | illegal {w s'} : PopOf s s' → acceptedWord s = some w → s'.state ≠ .error →
      StepEffect s (s'.withError .illegalCommand w)
  | command {i s' t} : PopOf s s' → acceptedWord s = some (encode i) → Effect i s' t → StepEffect s t

theorem stepEffect_of_step {s t : State} (h : step s = .next t) : StepEffect s t := by
  obtain rfl | ⟨a, v, rest, -, -, rfl⟩ | ⟨rest, hr, rfl⟩ | ⟨s', hp, rfl | ⟨w, hw, hne, rfl⟩ | ⟨w, i, hw, hd, hE⟩⟩ :=
    step_effect h
  · exact .kept (popOf_setHost t t.host)
  · exact .read (popOf_setHost s rest)
  · exact .reset hr
  · exact .kept hp
  · exact .illegal hp hw hne
  · exact .command hp (by rw [hw, encode_of_decode hd]) hE

end Sys2Proof.Machine
end

section
/-!
PROOFS. The invariant of spec/10_state.md R41: the reset state meets it and every step keeps it, one lemma for each operation
that a step is made of.
-/
namespace Sys2Proof.Machine

theorem outside.ne_skip {st : SessState} (h : outside st) : st ≠ .skip := by
  obtain rfl | rfl | rfl := h <;> decide

theorem State.active_iff (s : State) : s.active = true ↔ s.state = .run ∨ s.state = .skip := by
  simp [State.active]

theorem resetWith_inv (d : FifoDepth) : (State.resetWith d).Inv where
  errorIffCode := by simp [State.resetWith]
  noRecord _ := ⟨rfl, rfl⟩
  fifoBound := Nat.zero_le _
  idleClear _ := ⟨rfl, rfl, rfl, rfl, rfl, rfl, rfl⟩
  skipAtRoot h := by cases h
  memCanonical := rfl

/-- Settles O49: the values of R40 meet each clause. -/
theorem resetStateMeetsInvariant : Obligations.ResetStateMeetsInvariant := resetWith_inv

namespace State.Inv

variable {s : State}

theorem errCode_eq_none (h : s.Inv) (hs : s.state ≠ .error) : s.errCode = .none :=
  not_not.1 (mt h.errorIffCode.1 hs)

theorem applyReset (h : s.Inv) : s.applyReset.Inv :=
  { resetWith_inv s.fifoDepth with memCanonical := h.memCanonical }

/-- A pop shortens FIFO and leaves every register. -/
theorem popOf {s' : State} (h : s.Inv) (hp : PopOf s s') : s'.Inv := by
  obtain ⟨k, -, -, hf⟩ := hp.popped
  constructor
  case errorIffCode => rw [hp.errCode, hp.state]; exact h.errorIffCode
  case noRecord => rw [hp.errCode, hp.errPos, hp.errData]; exact h.noRecord
  case fifoBound =>
    rw [hf, hp.fifoDepth, List.length_drop]
    exact (Nat.sub_le _ _).trans h.fifoBound
  case idleClear =>
    rw [hp.state, hp.bitpos, hp.symcnt, hf, hp.errCode, hp.errPos, hp.errData, hp.cur]
    intro hi
    obtain ⟨hb, hy, hfifo, hrest⟩ := h.idleClear hi
    exact ⟨hb, hy, by simp [hfifo], hrest⟩
  case skipAtRoot => rw [hp.state, hp.cur, hp.rootIdx, hp.symcnt]; exact h.skipAtRoot
  case memCanonical => rw [hp.nodeMem]; exact h.memCanonical

theorem receive (h : s.Inv) (g : HostGot) : (s.receive g).Inv := { h with }

theorem setNaddr (h : s.Inv) (a : NodeIdx) : (s.setNaddr a).Inv := { h with }

theorem writeNode (h : s.Inv) (w : NodeWord) : (s.writeNode w).Inv :=
  { h with memCanonical := Memory.wf_memWrite _ _ _ h.memCanonical }

/-- SETROOT does not run in SKIP, the one STATE in which the invariant speaks of ROOT_IDX. -/
theorem setRoot (h : s.Inv) (ho : outside s.state) (rv : Bool) (i : NodeIdx) : (s.setRoot rv i).Inv :=
  { h with skipAtRoot := fun hs => absurd hs ho.ne_skip }

/-- Error entry writes STATE and ERR_CODE together (R124). -/
theorem withError (h : s.Inv) {code : ErrCode} (hc : code ≠ .none) (data : Word32) : (s.withError code data).Inv where
  errorIffCode := by simp [hc]
  noRecord hn := absurd hn hc
  fifoBound := h.fifoBound
  idleClear hi := by cases hi
  skipAtRoot hs := by cases hs
  memCanonical := h.memCanonical

/-- What START leaves: everything cleared, CUR at the root. -/
theorem start (h : s.Inv) : ((s.clearSession.setCur s.rootIdx).setState (openState s.rootValid)).Inv where
  errorIffCode := by cases s.rootValid <;> simp [openState]
  noRecord _ := ⟨rfl, rfl⟩
  fifoBound := Nat.zero_le _
  idleClear := by cases s.rootValid <;> simp [openState]
  skipAtRoot _ := ⟨rfl, rfl⟩
  memCanonical := h.memCanonical

theorem abort (h : s.Inv) : ((s.clearSession.setCur 0#9).setState .idle).Inv where
  errorIffCode := by simp
  noRecord _ := ⟨rfl, rfl⟩
  fifoBound := Nat.zero_le _
  idleClear _ := ⟨rfl, rfl, rfl, rfl, rfl, rfl, rfl⟩
  skipAtRoot hs := by cases hs
  memCanonical := h.memCanonical

theorem finished (h : s.Inv) (hs : s.state ≠ .error) : (s.setState .done).Inv where
  errorIffCode := by simp [h.errCode_eq_none hs]
  noRecord := h.noRecord
  fifoBound := h.fifoBound
  idleClear hi := by cases hi
  skipAtRoot hs := by cases hs
  memCanonical := h.memCanonical

/-- BIT in SKIP counts its element and does nothing else. -/
theorem countElement (h : s.Inv) (hs : s.state ≠ .idle) : s.countElement.Inv :=
  { h with idleClear := fun hi => absurd hi hs }

/-- BIT in RUN is bound by neither the clause of IDLE nor that of SKIP when it moves CUR. -/
theorem setCur (h : s.Inv) (hs : s.state = .run) (i : NodeIdx) : (s.setCur i).Inv :=
  { h with
    idleClear := by simp [hs]
    skipAtRoot := by simp [hs] }

/-- A BIT that is not held finds room in FIFO for its symbol (R148). -/
theorem pushSymbol (h : s.Inv) (hs : s.state = .run) (hf : fifoFull s = false) (y : Symb) : (s.pushSymbol y).Inv :=
  { h with
    fifoBound := by
      have hne : s.fifo.length ≠ s.fifoDepth.val := by simpa [fifoFull, fifoCount] using hf
      simpa using lt_of_le_of_ne h.fifoBound hne
    idleClear := by simp [hs]
    skipAtRoot := by simp [hs] }

end State.Inv

/-- Every command keeps the invariant. -/
theorem Effect.inv {i : Instr} {s t : State} (h : Effect i s t) (hi : s.Inv) : t.Inv := by
  cases h with
  | discarded => exact hi
  | violation => exact hi.withError (by decide) _
  | nop => exact hi
  | setaddr => exact hi.setNaddr _
  | wnode => exact hi.writeNode _
  | setroot ho => exact hi.setRoot ho _ _
  | start => exact hi.start
  | finished ha =>
    refine hi.finished fun he => ?_
    simp [s.active_iff, he] at ha
  | incomplete => exact hi.withError (by decide) _
  | abort => exact hi.abort
  | skipped hs => exact hi.countElement (by simp [hs])
  | invalid => exact hi.withError (by decide) _
  | malformed => exact hi.withError (by decide) _
  | emitted hs hf => exact ((hi.pushSymbol hs hf _).setCur hs _).countElement (by simp [hs])
  | descended hs => exact (hi.setCur hs _).countElement (by simp [hs])

/-- Settles O50, from what each operation keeps. -/
theorem stepKeepsInvariant : Obligations.StepKeepsInvariant := by
  intro s t hi h
  cases stepEffect_of_step h with
  | kept hp => exact hi.popOf hp
  | read hp => exact (hi.popOf hp).receive _
  | reset => exact (hi.popOf (popOf_setHost s _)).applyReset
  | illegal hp => exact (hi.popOf hp).withError (by decide) _
  | command hp _ hE => exact hE.inv (hi.popOf hp)

end Sys2Proof.Machine
end

section
/-!
PROOFS. What writes each register of spec/10_state.md section 1. For each of them one lemma says what a command can do to it, by
`Effect`; that a pop, a read and the rest of a step leave it, or reset it, comes from `StepEffect`.
-/
namespace Sys2Proof.Machine

theorem openState_eq_run_or_skip (rv : Bool) : openState rv = .run ∨ openState rv = .skip := by
  cases rv
  · exact .inr rfl
  · exact .inl rfl

theorem PopOf.active {s s' : State} (h : PopOf s s') : s'.active = s.active := by rw [State.active, State.active, h.state]

/-! ### STATE -/

theorem Effect.state_cases {i : Instr} {s t : State} (h : Effect i s t) :
    t.state = s.state ∨
    (i = .start ∧ (t.state = .run ∨ t.state = .skip)) ∨
    (i = .finish ∧ t.state = .done) ∨
    (i = .abort ∧ t.state = .idle) ∨
    (t.state = .error ∧ t.errCode ≠ .none ∧ t.errPos = s.bitpos) := by
  cases h with
  | discarded | nop | setaddr | wnode | setroot | skipped | emitted | descended => exact .inl rfl
  | start => exact .inr (.inl ⟨rfl, openState_eq_run_or_skip _⟩)
  | finished => exact .inr (.inr (.inl ⟨rfl, rfl⟩))
  | abort => exact .inr (.inr (.inr (.inl ⟨rfl, rfl⟩)))
  | violation | incomplete | invalid | malformed =>
    exact .inr (.inr (.inr (.inr ⟨rfl, by simp, rfl⟩)))

/-- Settles O39: only a reset and the commands of `Effect.state_cases` write STATE. -/
theorem onlyListedRulesWriteState : Obligations.OnlyListedRulesWriteState := by
  intro s t h hne
  cases stepEffect_of_step h with
  | kept hp | read hp => exact absurd hp.state hne
  | reset hr => exact .inl ⟨hr, rfl⟩
  | illegal hp => exact .inr (.inr (.inr (.inr ⟨rfl, by simp, hp.bitpos⟩)))
  | command hp hw hE =>
    rcases hE.state_cases with he | ⟨rfl, hs⟩ | ⟨rfl, hs⟩ | ⟨rfl, hs⟩ | ⟨hs, hc, hpos⟩
    · exact absurd (he.trans hp.state) hne
    · exact .inr (.inl ⟨hw, hs⟩)
    · exact .inr (.inr (.inl ⟨hw, hs⟩))
    · exact .inr (.inr (.inr (.inl ⟨hw, hs⟩)))
    · exact .inr (.inr (.inr (.inr ⟨hs, hc, hpos.trans hp.bitpos⟩)))

/-! ### CUR -/

theorem Effect.cur_cases {i : Instr} {s t : State} (h : Effect i s t) :
    t.cur = s.cur ∨
    (i = .start ∧ t.cur = s.rootIdx) ∨
    (i = .abort ∧ t.cur = 0#9) ∨
    (s.state = .run ∧ t.state = .run ∧ ∃ e, i = .bit e ∧
      (t.cur = s.rootIdx ∨ ∃ n, memRead s.nodeMem s.cur = some n ∧ selects e n t.cur)) := by
  cases h with
  | discarded | violation | nop | setaddr | wnode | setroot | finished | incomplete | skipped | invalid | malformed =>
    exact .inl rfl
  | start => exact .inr (.inl ⟨rfl, rfl⟩)
  | abort => exact .inr (.inr (.inl ⟨rfl, rfl⟩))
  | emitted hs => exact .inr (.inr (.inr ⟨hs, hs, _, rfl, .inl rfl⟩))
  | descended hs _ hn hsel => exact .inr (.inr (.inr ⟨hs, hs, _, rfl, .inr ⟨_, hn, hsel⟩⟩))

/-- Settles O40: only a reset and the commands of `Effect.cur_cases` write CUR. -/
theorem onlyListedRulesWriteCur : Obligations.OnlyListedRulesWriteCur := by
  refine ⟨fun s t h hne => ?_, fun _ => rfl⟩
  cases stepEffect_of_step h with
  | kept hp | read hp | illegal hp => exact absurd hp.cur hne
  | reset hr => exact .inl ⟨hr, rfl⟩
  | command hp hw hE =>
    have hcases := hE.cur_cases
    rw [hp.cur, hp.rootIdx, hp.state, hp.nodeMem] at hcases
    rcases hcases with he | ⟨rfl, hc⟩ | ⟨rfl, hc⟩ | ⟨hs, ht, e, rfl, hc⟩
    · exact absurd he hne
    · exact .inr (.inl ⟨hw, hc⟩)
    · exact .inr (.inr (.inl ⟨hw, hc⟩))
    · exact .inr (.inr (.inr ⟨hs, ht, e, hw, hc⟩))

/-! ### The root register -/

theorem Effect.root_cases {i : Instr} {s t : State} (h : Effect i s t) :
    (t.rootValid = s.rootValid ∧ t.rootIdx = s.rootIdx) ∨ (outside s.state ∧ i = .setroot t.rootValid t.rootIdx) := by
  cases h with
  | setroot ho => exact .inr ⟨ho, rfl⟩
  | discarded | violation | nop | setaddr | wnode | start | finished | incomplete | abort | skipped | invalid | malformed
  | emitted | descended => exact .inl ⟨rfl, rfl⟩

/-- Settles O41: only a reset and the commands of `Effect.root_cases` write the root register. -/
theorem onlySetrootAndResetWriteRoot : Obligations.OnlySetrootAndResetWriteRoot := by
  refine ⟨fun s t h => ?_, fun _ => ⟨rfl, rfl⟩, fun s t hv ho h => ?_⟩
  · cases stepEffect_of_step h with
    | kept hp | read hp | illegal hp => exact .inl ⟨hp.rootValid, hp.rootIdx⟩
    | reset hr => exact .inr (.inl ⟨hr, rfl, rfl⟩)
    | command hp hw hE =>
      rcases hE.root_cases with ⟨hv, hi⟩ | ⟨ho, rfl⟩
      · exact .inl ⟨hv.trans hp.rootValid, hi.trans hp.rootIdx⟩
      · exact .inr (.inr ⟨by rwa [hp.state] at ho, hw⟩)
  · rw [exec_start_outside ho] at h
    cases h
    simp [openState, hv]

/-! ### NADDR -/

theorem Effect.naddr_cases {i : Instr} {s t : State} (h : Effect i s t) :
    t.naddr = s.naddr ∨ i = .setaddr t.naddr ∨ ((∃ n, i = .wnode n) ∧ t.naddr = s.naddr + 1#9) := by
  cases h with
  | setaddr => exact .inr (.inl rfl)
  | wnode => exact .inr (.inr ⟨⟨_, rfl⟩, rfl⟩)
  | discarded | violation | nop | setroot | start | finished | incomplete | abort | skipped | invalid | malformed
  | emitted | descended => exact .inl rfl

/-- `exec_cases` backwards: every listed effect of a BIT is what `exec` answers. -/
theorem exec_bit_of_effect {e : Elem} {s t : State} (h : Effect (.bit e) s t) : exec (.bit e) s = .next t := by
  cases h with
  | discarded hv => exact guarded_discard _ hv
  | violation hv hne =>
    exact (guarded_violation _ ((verdict_violation_iff _ _).2 hv)).trans (by rw [s.commandError_of_ne _ _ hne]; rfl)
  | skipped hs => exact exec_bit_skip e hs
  | invalid hs hf hb => rw [exec_bit_run hs, walkBit, hf, hb]; rfl
  | malformed hs hf hn ha =>
    obtain ⟨b, hb, hc⟩ := nodeChild_of_selectsAbsent ha
    rw [exec_bit_run hs, walkBit, hf, hb]
    simp [descend, withNode_some _ hn, hc, State.raise_eq_withError]
  | emitted hs hf hn hsel hm hl | descended hs hf hn hsel hm hl =>
    rw [exec_bit_run hs, walkBit_selects hf hn hsel]
    simp [arriveAt, withNode_some _ hm, hl]

/-- The walk neither reads NADDR nor writes it (R25). -/
theorem Effect.bit_setNaddr {e : Elem} {s t : State} (h : Effect (.bit e) s t) (a : NodeIdx) :
    Effect (.bit e) (s.setNaddr a) (t.setNaddr a) := by
  cases h with
  | discarded hv => exact .discarded hv
  | violation hv hne => exact .violation (s := s.setNaddr a) hv hne
  | skipped hs => exact .skipped (s := s.setNaddr a) hs
  | invalid hs hf hb => exact .invalid (s := s.setNaddr a) hs hf hb
  | malformed hs hf hn ha => exact .malformed (s := s.setNaddr a) hs hf hn ha
  | emitted hs hf hn hsel hm hl => exact .emitted (s := s.setNaddr a) hs hf hn hsel hm hl
  | descended hs hf hn hsel hm hl => exact .descended (s := s.setNaddr a) hs hf hn hsel hm hl

/-- Settles O42: a BIT has the same effect whatever NADDR is, and each effect is what `exec` answers. -/
theorem onlyListedRulesWriteNaddr : Obligations.OnlyListedRulesWriteNaddr := by
  refine ⟨fun s t h hne => ?_, fun _ => rfl, fun e s t a h => exec_bit_of_effect ((exec_cases h).bit_setNaddr a)⟩
  cases stepEffect_of_step h with
  | kept hp | read hp | illegal hp => exact absurd hp.naddr hne
  | reset hr => exact .inl ⟨hr, rfl⟩
  | command hp hw hE =>
    rcases hE.naddr_cases with he | rfl | ⟨⟨n, rfl⟩, he⟩
    · exact absurd (he.trans hp.naddr) hne
    · exact .inr (.inl hw)
    · exact .inr (.inr ⟨⟨n, hw⟩, by rw [he, hp.naddr, BitVec.toNat_add]; rfl⟩)

/-! ### BITPOS and SYMCNT -/

theorem Effect.counters_cases {i : Instr} {s t : State} (h : Effect i s t) :
    (t.bitpos = s.bitpos ∧ t.symcnt = s.symcnt) ∨
    (t.bitpos = s.bitpos + 1#32 ∧ (t.symcnt = s.symcnt ∨ t.symcnt = s.symcnt + 1#32) ∧ s.active = true ∧ ∃ e, i = .bit e) ∨
    (t.bitpos = 0#32 ∧ t.symcnt = 0#32 ∧ (i = .start ∨ i = .abort)) := by
  cases h with
  | discarded | violation | nop | setaddr | wnode | setroot | finished | incomplete | invalid | malformed =>
    exact .inl ⟨rfl, rfl⟩
  | start => exact .inr (.inr ⟨rfl, rfl, .inl rfl⟩)
  | abort => exact .inr (.inr ⟨rfl, rfl, .inr rfl⟩)
  | skipped hs => exact .inr (.inl ⟨rfl, .inl rfl, s.active_iff.2 (.inr hs), _, rfl⟩)
  | descended hs => exact .inr (.inl ⟨rfl, .inl rfl, s.active_iff.2 (.inl hs), _, rfl⟩)
  | emitted hs => exact .inr (.inl ⟨rfl, .inr rfl, s.active_iff.2 (.inl hs), _, rfl⟩)

/-- Settles O43: only a reset and the commands of `Effect.counters_cases` write the counters. -/
theorem countersCountUpOrClear : Obligations.CountersCountUpOrClear := by
  intro s t h
  cases stepEffect_of_step h with
  | kept hp | read hp | illegal hp => exact .inl ⟨hp.bitpos, hp.symcnt⟩
  | reset hr => exact .inr (.inr ⟨rfl, rfl, .inl hr⟩)
  | command hp hw hE =>
    have hcases := hE.counters_cases
    rw [hp.bitpos, hp.symcnt, hp.active] at hcases
    rcases hcases with hkept | ⟨hb, hy, ha, e, rfl⟩ | ⟨hb, hy, rfl | rfl⟩
    · exact .inl hkept
    · exact .inr (.inl ⟨hb, hy, ha, e, hw⟩)
    · exact .inr (.inr ⟨hb, hy, .inr (.inl hw)⟩)
    · exact .inr (.inr ⟨hb, hy, .inr (.inr hw)⟩)

end Sys2Proof.Machine
end

section
/-!
PROOFS. The ports of spec/10_state.md section 4: the accepted command and the pop of one edge, the read-register map and the
fields of STATUS.
-/
namespace Sys2Proof.Machine

/-! ### One edge -/

/-- An edge that is no reset: the pop, and then the command if one is accepted (R114). -/
theorem step_edge {s : State} {p : PortIn} {rest : List HostStep} (h : s.host = .edge p :: rest) (hr : p.rst = false) :
    step s = if accepts p s = true then stepCommand p.cmdData (popEdge p (s.setHost rest))
      else .next (popEdge p (s.setHost rest)) := by
  split
  next ha => exact step_accept h ha
  next ha => exact step_no_accept h hr (Bool.eq_false_iff.2 ha)

/-- Settles O9: `step_accept` with the pop of `popEdge_eq`; the edge of `withFetchWord` pops nothing. -/
theorem stepRunsDecodedCommand : Obligations.StepRunsDecodedCommand := by
  refine ⟨fun s p rest i h ha hd => ?_, fun s w i hd hready => ?_⟩
  · rw [step_accept h ha, stepCommand_ok _ hd, popEdge_eq p _ ((accepts_iff p s).1 ha).2.1]
  · have hword : BitVec.ofNat 32 (w.toNat % 2 ^ 32) = w := by
      rw [Nat.mod_eq_of_lt w.isLt, BitVec.ofNat_toNat, BitVec.setWidth_eq]
    have hhost : (s.withFetchWord 32 w.toNat).host = .edge ⟨false, true, w, false⟩ :: s.host := by
      rw [State.withFetchWord, State.setHost_host, presents, hword]
    have ha : accepts ⟨false, true, w, false⟩ (s.withFetchWord 32 w.toNat) = true := hready
    rw [step_accept hhost ha, stepCommand_ok _ hd, popEdge_eq _ _ rfl]
    rfl

theorem symValid_iff (rst : Bool) (s : State) : symValid rst s = true ↔ rst = false ∧ s.fifo ≠ [] := by
  simp [symValid, fifoEmpty, fifoCount]

/-- A held word finds a symbol in FIFO, since FIFO_DEPTH is at least 1; the pop of it leaves FIFO not full (R148). -/
theorem cmdReady_popSymbol {w : Word32} {s : State} (h : cmdReady false w s = false) :
    cmdReady false w s.popSymbol = true := by
  have hheld : holds w s = true := by simpa [cmdReady] using h
  simp only [holds, fifoFull, fifoCount, Bool.and_eq_true, beq_iff_eq] at hheld
  obtain ⟨⟨-, hfull⟩, -⟩ := hheld
  have hpos := s.fifoDepth.positive
  have hnot : fifoFull s.popSymbol = false := by
    simp only [fifoFull, fifoCount, State.popSymbol_fifo, State.popSymbol_fifoDepth, List.length_tail, beq_eq_false_iff_ne]
    omega
  simp [cmdReady, holds, hnot]

/-- Settles O11: `step_edge`, by whether FIFO has a symbol to pop. -/
theorem popDeliversHead : Obligations.PopDeliversHead := by
  refine ⟨symValid_iff, fun s hf => ?_, fun s p rest h hr hp => ⟨fun y ys hf => ⟨?_, ?_⟩, fun hf => ?_⟩,
    fun w s => cmdReady_popSymbol⟩
  · simp [symData, hf]
  · simp [symData, hf]
  · rw [step_edge h hr, popEdge_eq p _ hr, if_pos hp, State.popSymbol_cons (s.setHost rest) hf]
    rfl
  · rw [step_edge h hr, popEdge_eq p _ hr, if_pos hp, State.popSymbol_nil (s.setHost rest) hf]
    rfl

/-! ### The read registers -/

/-- A field of `n` bits below reserved zeros is read back at its bits. -/
theorem extract_zero_append {m n : Nat} (x : BitVec n) :
    (0#m ++ x).extractLsb' n m = 0#m ∧ (0#m ++ x).extractLsb' 0 n = x :=
  ⟨BitVec.extractLsb'_append_eq_left, BitVec.extractLsb'_append_eq_right⟩

/-- The ROOT register: RV at bit 9 and IDX below it. -/
theorem rootWord_fields (rv : Bool) (i : NodeIdx) :
    (0#22 ++ BitVec.ofBool rv ++ i).extractLsb' 10 22 = 0#22 ∧ (0#22 ++ BitVec.ofBool rv ++ i).getLsbD 9 = rv ∧
      (0#22 ++ BitVec.ofBool rv ++ i).extractLsb' 0 9 = i := by
  refine ⟨?_, ?_, BitVec.extractLsb'_append_eq_right⟩
  · rw [BitVec.extractLsb'_append_eq_of_le (by decide)]
    exact BitVec.extractLsb'_append_eq_left
  · simp only [BitVec.getLsbD_append]
    simp

/-- A read with a value gives it to the host and does nothing else (R112). -/
theorem step_read {s : State} {a : RdAddr} {v : Word32} {rest : List HostStep} (h : s.host = .read a :: rest)
    (hv : rdData a s = some v) : step s = .next ((s.setHost rest).receive (.data a v)) := by
  simp [step_cons h, hostStep, readRegister, hv]

theorem rdData_unassigned {a : RdAddr} (s : State) (h : 9 ≤ a.toNat) : rdData a s = some 0#32 := by
  unfold rdData
  split
  case h_10 => rfl
  all_goals omega

/-- Settles O13, address by address. -/
theorem readRegisterMap : Obligations.ReadRegisterMap := by
  intro s
  refine ⟨rfl, rfl, rfl, rfl, rfl, ⟨_, rfl, rootWord_fields s.rootValid s.rootIdx⟩, ⟨_, rfl, extract_zero_append s.cur⟩,
    ⟨_, rfl, extract_zero_append s.naddr⟩, fun n hn => ⟨0#4 ++ n, ?_, extract_zero_append n⟩,
    fun a => rdData_unassigned s, fun a v rest => step_read⟩
  have hrd : rdData 0x8#4 s = (memRead s.nodeMem s.naddr).map fun n => 0#4 ++ n := rfl
  rw [hrd, hn]
  rfl

/-! ### STATUS -/

section
variable (count : BitVec 16) (empty full : Bool) (code st : BitVec 3)

/-- The fields of STATUS in the order of R39. -/
def statusFields : Word32 := count ++ 0#7 ++ BitVec.ofBool empty ++ BitVec.ofBool full ++ code ++ 0#1 ++ st

theorem statusFields_state : (statusFields count empty full code st).extractLsb' 0 3 = st :=
  BitVec.extractLsb'_append_eq_right

theorem statusFields_bit3 : (statusFields count empty full code st).getLsbD 3 = false := by
  simp only [statusFields, BitVec.getLsbD_append]
  simp

theorem statusFields_errCode : (statusFields count empty full code st).extractLsb' 4 3 = code := by
  simp only [statusFields, BitVec.extractLsb'_append_eq_ite]
  simp

theorem statusFields_full : (statusFields count empty full code st).getLsbD 7 = full := by
  simp only [statusFields, BitVec.getLsbD_append]
  simp

theorem statusFields_empty : (statusFields count empty full code st).getLsbD 8 = empty := by
  simp only [statusFields, BitVec.getLsbD_append]
  simp

theorem statusFields_reserved : (statusFields count empty full code st).extractLsb' 9 7 = 0#7 := by
  simp only [statusFields, BitVec.extractLsb'_append_eq_ite]
  simp

theorem statusFields_count : (statusFields count empty full code st).extractLsb' 16 16 = count := by
  simp only [statusFields, BitVec.extractLsb'_append_eq_ite]
  simp

end

theorem statusWord_eq (s : State) : statusWord s =
    statusFields (BitVec.ofNat 16 (fifoCount s)) (fifoEmpty s) (fifoFull s) s.errCode.code s.state.code := rfl

/-- Settles O14, field by field; FIFO_COUNT fits its 16 bits because FIFO_DEPTH is at most 65535 (R6). -/
theorem statusLayout : Obligations.StatusLayout := by
  refine ⟨fun s => ?_, fun d => ?_⟩
  · rw [statusWord_eq, statusFields_state, statusFields_bit3, statusFields_errCode, statusFields_full, statusFields_empty,
      statusFields_reserved, statusFields_count]
    refine ⟨?_, rfl, ?_, by simp [fifoFull, fifoCount], by simp [fifoEmpty, fifoCount], rfl, fun hle => ?_⟩
    · cases s.state <;> rfl
    · cases s.errCode <;> rfl
    · have hlt : s.fifo.length < 2 ^ 16 := by have := s.fifoDepth.bounded; omega
      rw [BitVec.toNat_ofNat, fifoCount, Nat.mod_eq_of_lt hlt]
  · have hfull : fifoFull (State.resetWith d) = false := by
      have := d.positive
      simp [fifoFull, fifoCount, State.resetWith]
      omega
    have hword : statusFields 0#16 true false 0#3 0#3 = 0x00000100#32 := by decide
    rw [statusWord_eq, hfull]
    exact hword

end Sys2Proof.Machine
end

section
/-!
PROOFS. Node memory and FIFO (spec/20_memory.md): a written node word reads back, an unwritten entry faults, and symbols reach the
host in the order they were pushed.
-/
namespace Sys2Proof.Machine

/-! ### Writing node memory through the command port -/

theorem decode_encode_wnode (n : NodeWord) : decode (encode (.wnode n)) = .ok (.wnode n) := by
  have hnode : (encode (.wnode n)).extractLsb' 0 28 = n := BitVec.extractLsb'_append_eq_right
  unfold decode
  rw [Laws.EncodedOpcode.wnode n, hnode]
  rfl

theorem decode_encode_setaddr (a : NodeIdx) : decode (encode (.setaddr a)) = .ok (.setaddr a) := by
  have hres : (encode (.setaddr a)).extractLsb' 9 19 = 0#19 := by
    rw [encode, BitVec.extractLsb'_append_eq_of_le le_rfl]
    exact BitVec.extractLsb'_append_eq_right
  have haddr : (encode (.setaddr a)).extractLsb' 0 9 = a := BitVec.extractLsb'_append_eq_right
  unfold decode
  rw [Laws.EncodedOpcode.setaddr a, hres, haddr]
  rfl

theorem exec_wnode_outside {s : State} (n : NodeWord) (h : outside s.state) : exec (.wnode n) s = .next (s.writeNode n) :=
  guarded_execute _ (by obtain h | h | h := h <;> simp [verdict, h])

theorem exec_setaddr (a : NodeIdx) (s : State) : exec (.setaddr a) s = .next (s.setNaddr a) := rfl

/-- A presented word that is no BIT's is never held, and its edge pops nothing. -/
theorem step_presents {s : State} {w : Word32} {rest : List HostStep} (h : s.host = presents w :: rest)
    (hop : opcodeOf w ≠ 0x5#4) : step s = stepCommand w (s.setHost rest) := by
  have ha : accepts ⟨false, true, w, false⟩ s = true :=
    (accepts_iff _ _).2 ⟨rfl, rfl, holds_eq_false_iff.2 fun _ hbit => absurd hbit hop⟩
  rw [step_accept h ha, popEdge_eq _ _ rfl]
  rfl

theorem step_presents_wnode {s : State} {n : NodeWord} {rest : List HostStep}
    (h : s.host = presents (encode (.wnode n)) :: rest) (ho : outside s.state) :
    step s = .next ((s.setHost rest).writeNode n) := by
  have hop : opcodeOf (encode (.wnode n)) ≠ 0x5#4 :=
    ne_of_eq_of_ne (Laws.EncodedOpcode.wnode n) (by decide : 0x2#4 ≠ 0x5#4)
  rw [step_presents h hop, stepCommand_ok _ (decode_encode_wnode n)]
  exact exec_wnode_outside n ho

theorem step_presents_setaddr {s : State} {a : NodeIdx} {rest : List HostStep}
    (h : s.host = presents (encode (.setaddr a)) :: rest) : step s = .next ((s.setHost rest).setNaddr a) := by
  have hop : opcodeOf (encode (.setaddr a)) ≠ 0x5#4 :=
    ne_of_eq_of_ne (Laws.EncodedOpcode.setaddr a) (by decide : 0x1#4 ≠ 0x5#4)
  rw [step_presents h hop, stepCommand_ok _ (decode_encode_setaddr a)]
  exact exec_setaddr a _

/-- NODE_RD is the entry at NADDR, zero-extended (R38). -/
theorem rdData_nodeRd (s : State) : rdData 0x8#4 s = (memRead s.nodeMem s.naddr).map (BitVec.setWidth 32) := by
  have hext : (fun n : NodeWord => (0#4 ++ n : Word32)) = BitVec.setWidth 32 :=
    funext fun _ => (BitVec.setWidth_eq_append (by decide)).symm
  rw [← hext]
  rfl

/-- Settles O15, step by step: WNODE, SETADDR, and the read of the entry just written. -/
theorem writtenNodeReadsBack : Obligations.WrittenNodeReadsBack := by
  intro s n ho
  refine ⟨_, (core_run_succ 2 (step_presents_wnode (s := { s with host := _ }) rfl ho)).trans <|
    (core_run_succ 1 (step_presents_setaddr rfl)).trans <| core_run_succ 0 (step_read rfl ?_), rfl⟩
  rw [rdData_nodeRd]
  simp [memRead_memWrite_same]

/-! ### What an unwritten entry does -/

theorem bitOf_eq_some {e : Elem} (h : e = 0x30#8 ∨ e = 0x31#8) : ∃ b, bitOf e = some b := by
  obtain rfl | rfl := h
  · exact ⟨false, rfl⟩
  · exact ⟨true, rfl⟩

theorem fifoFull_eq_false {s : State} (h : s.fifo.length ≠ s.fifoDepth.val) : fifoFull s = false := by
  simpa [fifoFull, fifoCount] using h

theorem exec_bit_unwritten_cur {s : State} {e : Elem} (hr : s.state = .run) (hf : s.fifo.length ≠ s.fifoDepth.val)
    (he : e = 0x30#8 ∨ e = 0x31#8) (hm : memRead s.nodeMem s.cur = none) :
    exec (.bit e) s = .fault (.unwrittenNode s.cur) := by
  obtain ⟨b, hb⟩ := bitOf_eq_some he
  have hwalk : walkBit e s = descend e b s := by simp [walkBit, fifoFull_eq_false hf, hb]
  rw [exec_bit_run hr, hwalk, descend, withNode_none _ hm]

theorem exec_bit_unwritten_child {s : State} {e : Elem} {n : NodeWord} {i : NodeIdx} (hr : s.state = .run)
    (hf : s.fifo.length ≠ s.fifoDepth.val) (hn : memRead s.nodeMem s.cur = some n) (hsel : selects e n i)
    (hm : memRead s.nodeMem i = none) : exec (.bit e) s = .fault (.unwrittenNode i) := by
  rw [exec_bit_run hr, walkBit_selects (fifoFull_eq_false hf) hn hsel, arriveAt, withNode_none _ hm]

theorem step_read_unwritten {s : State} {rest : List HostStep} (h : s.host = .read 0x8#4 :: rest)
    (hm : memRead s.nodeMem s.naddr = none) : step s = .fault (.unwrittenNode s.naddr) := by
  simp [step_cons h, hostStep, readRegister, rdData_nodeRd, hm]

/-! ### Nothing else faults -/

/-- The dispatch R75 faults only where it runs a command's own rule. -/
theorem guarded_fault {i : Instr} {s : State} {body : Answer} {f : Fault} (h : guarded i s body = .fault f) :
    verdict i s.state = .execute ∧ body = .fault f := by
  cases hv : verdict i s.state with
  | execute => exact ⟨rfl, by rwa [guarded_execute _ hv] at h⟩
  | discard => simp [guarded_discard _ hv] at h
  | violation => simp [guarded_violation _ hv] at h

/-- The one command that faults is a BIT in RUN. -/
theorem exec_fault {i : Instr} {s : State} {f : Fault} (h : exec i s = .fault f) : s.state = .run ∧ ∃ e, i = .bit e := by
  cases i with
  | bit e =>
    obtain ⟨hv, hb⟩ := guarded_fault h
    split at hb
    · cases hb
    next hs => exact ⟨run_of_bit hv hs, e, rfl⟩
  | finish =>
    have hb := (guarded_fault h).2
    split at hb <;> cases hb
  | nop | setaddr | abort => cases h
  | wnode | setroot | start => cases (guarded_fault h).2

theorem stepCommand_fault {w : Word32} {s : State} {f : Fault} (h : stepCommand w s = .fault f) :
    s.state = .run ∧ ∃ e, w = encode (.bit e) := by
  cases hd : decode w with
  | error r => simp [stepCommand_error s hd] at h
  | ok i =>
    rw [stepCommand_ok s hd] at h
    obtain ⟨hr, e, rfl⟩ := exec_fault h
    exact ⟨hr, e, (encode_of_decode hd).symm⟩

/-- The one register whose read faults is NODE_RD. -/
theorem readRegister_fault {a : RdAddr} {s : State} {f : Fault} (h : readRegister a s = .fault f) : a = 0x8#4 := by
  by_contra ha
  obtain ⟨v, hv⟩ := exists_rdData (a := a) (s := s) fun h8 => absurd h8 ha
  simp [readRegister, hv] at h

theorem step_fault {s : State} {f : Fault} (h : step s = .fault f) :
    (∃ rest, s.host = .read 0x8#4 :: rest) ∨ (s.state = .run ∧ ∃ e, acceptedWord s = some (encode (.bit e))) := by
  cases hh : s.host with
  | nil => simp [step_nil hh] at h
  | cons x rest =>
    cases x with
    | read a =>
      rw [step_cons hh] at h
      exact .inl ⟨rest, by rw [readRegister_fault h]⟩
    | edge p =>
      cases hr : p.rst with
      | true => simp [step_reset hh hr] at h
      | false =>
        rw [step_edge hh hr] at h
        split at h
        next ha =>
          obtain ⟨hrun, e, hw⟩ := stepCommand_fault h
          rw [(popOf_popEdge p s rest).state] at hrun
          exact .inr ⟨hrun, e, by rw [acceptedWord_edge hh, if_pos ha, hw]⟩
        · cases h

/-! ### What is written stays written -/

theorem Effect.nodeMem_cases {i : Instr} {s t : State} (h : Effect i s t) :
    t.nodeMem = s.nodeMem ∨ ∃ n, i = .wnode n ∧ t.nodeMem = memWrite s.nodeMem s.naddr n := by
  cases h with
  | wnode => exact .inr ⟨_, rfl, rfl⟩
  | discarded | violation | nop | setaddr | setroot | start | finished | incomplete | abort | skipped | invalid | malformed
  | emitted | descended => exact .inl rfl

theorem step_nodeMem_cases {s t : State} (h : step s = .next t) :
    t.nodeMem = s.nodeMem ∨
    ∃ n, acceptedWord s = some (encode (.wnode n)) ∧ t.nodeMem = memWrite s.nodeMem s.naddr n := by
  cases stepEffect_of_step h with
  | kept hp | read hp | illegal hp => exact .inl hp.nodeMem
  | reset => exact .inl rfl
  | command hp hw hE =>
    have hcases := hE.nodeMem_cases
    rw [hp.nodeMem, hp.naddr] at hcases
    obtain hm | ⟨n, rfl, hm⟩ := hcases
    · exact .inl hm
    · exact .inr ⟨n, hw, hm⟩

theorem step_keeps_written {s t : State} {j : NodeIdx} {n : NodeWord} (h : step s = .next t)
    (hj : memRead s.nodeMem j = some n) :
    memRead t.nodeMem j = some n ∨ (s.naddr = j ∧ ∃ n', acceptedWord s = some (encode (.wnode n'))) := by
  obtain hm | ⟨n', hw, hm⟩ := step_nodeMem_cases h
  · exact .inl (by rwa [hm])
  · by_cases hne : s.naddr = j
    · exact .inr ⟨hne, n', hw⟩
    · exact .inl (by rwa [hm, memRead_memWrite_other _ _ (Ne.symm hne)])

theorem core_run_fault {s : State} {f : Fault} (k : Nat) (h : step s = .fault f) : core.run (k + 1) s = .fault f := by
  have hc : core.step s = .fault f := h
  simp only [Host.Core.run, hc]

/-- Settles O32, clause by clause. -/
theorem unwrittenEntryFaults : Obligations.UnwrittenEntryFaults :=
  ⟨fun _ _ => rfl, fun _ _ => exec_bit_unwritten_cur, fun _ _ _ _ => exec_bit_unwritten_child,
    fun _ _ => step_read_unwritten, fun _ _ => step_fault, fun _ _ _ _ => step_keeps_written,
    fun _ _ k => core_run_fault k⟩

/-! ### Symbols leave in order -/

/-- What a pop takes from FIFO the host has got: together they are as before. -/
theorem PopOf.gotSymbols_append_fifo {s s' : State} (h : PopOf s s') :
    s'.gotSymbols ++ s'.fifo = s.gotSymbols ++ s.fifo := by
  obtain ⟨popped, -, hg, hf⟩ := h.gotSymbols
  rw [hg, List.append_assoc, hf]

theorem PopOf.gotSymbols_take {s s' : State} (h : PopOf s s') :
    ∃ k ≤ 1, s'.gotSymbols = s.gotSymbols ++ s.fifo.take k := by
  obtain ⟨popped, hlen, hg, hf⟩ := h.gotSymbols
  exact ⟨popped.length, hlen, by rw [hg, ← hf, List.take_left]⟩

theorem Effect.gotSymbols {i : Instr} {s t : State} (h : Effect i s t) : t.gotSymbols = s.gotSymbols := by
  cases h <;> rfl

theorem Effect.fifo_cases {i : Instr} {s t : State} (h : Effect i s t) :
    (t.fifo = s.fifo ∧ t.symcnt = s.symcnt) ∨
    (∃ y, t.fifo = s.fifo ++ [y] ∧ t.symcnt = s.symcnt + 1#32) ∨
    (t.fifo = [] ∧ t.symcnt = 0#32 ∧ (i = .start ∨ i = .abort)) := by
  cases h with
  | emitted => exact .inr (.inl ⟨_, rfl, rfl⟩)
  | start => exact .inr (.inr ⟨rfl, rfl, .inl rfl⟩)
  | abort => exact .inr (.inr ⟨rfl, rfl, .inr rfl⟩)
  | discarded | violation | nop | setaddr | wnode | setroot | finished | incomplete | skipped | invalid | malformed
  | descended => exact .inl ⟨rfl, rfl⟩

/-- From `s` to `t` at most one symbol is pushed, which SYMCNT counts, and none is lost on the way to the host (R63). -/
def PushesAtMostOne (s t : State) : Prop :=
  ∃ ys : List Symb, ys.length ≤ 1 ∧ t.gotSymbols ++ t.fifo = s.gotSymbols ++ s.fifo ++ ys ∧
    t.symcnt = s.symcnt + BitVec.ofNat 32 ys.length

theorem PopOf.pushesAtMostOne {s s' t : State} (h : PopOf s s') (hg : t.gotSymbols = s'.gotSymbols)
    (hf : t.fifo = s'.fifo) (hc : t.symcnt = s'.symcnt) : PushesAtMostOne s t :=
  ⟨[], by simp, by rw [hg, hf, h.gotSymbols_append_fifo, List.append_nil], by simp [hc, h.symcnt]⟩

theorem PopOf.pushesAtMostOne_push {s s' t : State} {y : Symb} (h : PopOf s s') (hg : t.gotSymbols = s'.gotSymbols)
    (hf : t.fifo = s'.fifo ++ [y]) (hc : t.symcnt = s'.symcnt + 1#32) : PushesAtMostOne s t :=
  ⟨[y], by simp, by rw [hg, hf, ← List.append_assoc, h.gotSymbols_append_fifo], by rw [hc, h.symcnt]; rfl⟩

/-- Settles O45: a pop moves a symbol from FIFO to the host, and `Effect.fifo_cases` says what the command then does to FIFO. -/
theorem symbolsLeaveInOrder : Obligations.SymbolsLeaveInOrder := by
  intro s t h
  cases stepEffect_of_step h with
  | kept hp => exact .inl (hp.pushesAtMostOne rfl rfl rfl)
  | read hp => exact .inl (hp.pushesAtMostOne (gotSymbols_receive_data _ _ _) rfl rfl)
  | illegal hp => exact .inl (hp.pushesAtMostOne rfl rfl rfl)
  | reset hr => exact .inr ⟨rfl, rfl, ⟨0, by omega, by simp [State.gotSymbols]⟩, .inl hr⟩
  | command hp hw hE =>
    obtain ⟨hf, hc⟩ | ⟨y, hf, hc⟩ | ⟨hf, hc, hi⟩ := hE.fifo_cases
    · exact .inl (hp.pushesAtMostOne hE.gotSymbols hf hc)
    · exact .inl (hp.pushesAtMostOne_push hE.gotSymbols hf hc)
    · refine .inr ⟨hf, hc, by rw [hE.gotSymbols]; exact hp.gotSymbols_take, .inr ?_⟩
      obtain rfl | rfl := hi
      · exact .inl hw
      · exact .inr hw

end Sys2Proof.Machine
end

section
/-!
PROOFS. The command words of spec/30_encoding.md: decoding and encoding undo each other, the words of each row of R69, and the
words that are not Legal.
-/
namespace Sys2Proof.Machine

/-! ### Decoding undoes encoding -/

theorem decode_encode_setroot (rv : Bool) (i : NodeIdx) : decode (encode (.setroot rv i)) = .ok (.setroot rv i) := by
  have hres : (encode (.setroot rv i)).extractLsb' 10 18 = 0#18 := by
    rw [encode, BitVec.extractLsb'_append_eq_of_le (by decide), BitVec.extractLsb'_append_eq_of_le (by decide)]
    exact BitVec.extractLsb'_append_eq_right
  have hrv : (encode (.setroot rv i)).getLsbD 9 = rv := by
    simp only [encode, BitVec.getLsbD_append]
    simp
  have hidx : (encode (.setroot rv i)).extractLsb' 0 9 = i := BitVec.extractLsb'_append_eq_right
  unfold decode
  rw [Laws.EncodedOpcode.setroot rv i, hres, hrv, hidx]
  rfl

/-- Settles O2, command by command: each operand stands in the word at the bits the decoder reads it from. -/
theorem decodeOfEncode : Obligations.DecodeOfEncode := by
  intro i
  cases i with
  | nop | start | finish | abort => rfl
  | setaddr a => exact decode_encode_setaddr a
  | wnode n => exact decode_encode_wnode n
  | setroot rv i => exact decode_encode_setroot rv i
  | bit e => exact decode_encode_bit e

/-- Settles O3: the fields the decoder reads, reserved ones included, are the whole word. -/
theorem encodeOfDecode : Obligations.EncodeOfDecode := fun _ _ => encode_of_decode

theorem decode_eq_ok_iff {w : Word32} {i : Instr} : decode w = .ok i ↔ w = encode i := by
  constructor
  · intro h
    exact (encode_of_decode h).symm
  · rintro rfl
    exact decodeOfEncode i

theorem encode_injective : Function.Injective encode := fun i j h => by
  have hd : decode (encode j) = .ok i := decode_eq_ok_iff.2 h.symm
  rw [decodeOfEncode j] at hd
  injection hd with hij
  exact hij.symm

/-! ### The rows of R69 -/

/-- A MASK of `m` high bits fixes the opcode and the reserved field, and leaves the operand of `n` bits below them free. -/
theorem and_highMask_eq_iff {m n : Nat} (w : BitVec (m + n)) (hi : BitVec m) :
    w &&& (BitVec.allOnes m ++ 0#n) = hi ++ 0#n ↔ ∃ x : BitVec n, w = hi ++ x := by
  have hfields : w.extractLsb' n m ++ w.extractLsb' 0 n = w :=
    (BitVec.extractLsb'_append_extractLsb'_eq_extractLsb' (by omega)).trans BitVec.extractLsb'_eq_self
  have hand (a : BitVec m) (x : BitVec n) : (a ++ x) &&& (BitVec.allOnes m ++ 0#n) = a ++ 0#n := by
    rw [BitVec.and_append, BitVec.and_allOnes, BitVec.and_zero]
  constructor
  · intro h
    rw [← hfields, hand, BitVec.append_left_inj] at h
    exact ⟨w.extractLsb' 0 n, by rw [← h, hfields]⟩
  · rintro ⟨x, rfl⟩
    exact hand hi x

/-- A MASK of all bits fixes the word of a command without an operand. -/
theorem and_allOnes_eq_encode_iff (w : Word32) (i : Instr) : w &&& 0xFFFFFFFF#32 = encode i ↔ decode w = .ok i := by
  have hmask : w &&& 0xFFFFFFFF#32 = w := BitVec.and_allOnes
  rw [hmask, decode_eq_ok_iff]

/-- A field of one bit. -/
theorem ofBool_getLsbD {n : Nat} (x : BitVec n) (k : Nat) : BitVec.ofBool (x.getLsbD k) = x.extractLsb' k 1 := by
  ext j hj
  obtain rfl : j = 0 := by omega
  simp

theorem and_setrootMask_eq_iff (w : Word32) :
    w &&& 0xFFFFFC00#32 = 0x30000000#32 ↔ ∃ rv i, decode w = .ok (.setroot rv i) := by
  have hrow : w &&& 0xFFFFFC00#32 = 0x30000000#32 ↔ ∃ x : BitVec 10, w = 0x3#4 ++ 0#18 ++ x :=
    and_highMask_eq_iff (m := 22) (n := 10) w (0x3#4 ++ 0#18)
  have happend (rv : Bool) (i : NodeIdx) : encode (.setroot rv i) = 0x3#4 ++ 0#18 ++ (BitVec.ofBool rv ++ i) :=
    BitVec.append_assoc
  rw [hrow]
  constructor
  · rintro ⟨x, rfl⟩
    have hx : BitVec.ofBool (x.getLsbD 9) ++ x.extractLsb' 0 9 = x := by
      rw [ofBool_getLsbD, BitVec.extractLsb'_append_extractLsb'_eq_extractLsb' (by decide)]
      exact BitVec.extractLsb'_eq_self
    exact ⟨x.getLsbD 9, x.extractLsb' 0 9, decode_eq_ok_iff.2 (by rw [happend, hx])⟩
  · rintro ⟨rv, i, h⟩
    exact ⟨BitVec.ofBool rv ++ i, (decode_eq_ok_iff.1 h).trans (happend rv i)⟩

/-! ### Legal words -/

theorem exists_ifReservedZero_eq_ok {n : Nat} (res : BitVec n) (i : Instr) :
    (∃ j, ifReservedZero res i = .ok j) ↔ res = 0#n := by
  constructor
  · rintro ⟨j, h⟩
    exact (ifReservedZero_eq_ok h).1
  · intro h
    exact ⟨i, if_pos h⟩

/-- A mask of `m` bits between the opcode and an operand of `n` bits finds nothing exactly when that field is 0. -/
theorem and_reservedMask_eq_zero_iff {m n : Nat} (w : BitVec (4 + m + n)) :
    w &&& (0#4 ++ BitVec.allOnes m ++ 0#n) = 0#(4 + m + n) ↔ w.extractLsb' n m = 0#m := by
  have hfields : w.extractLsb' (n + m) 4 ++ w.extractLsb' n m ++ w.extractLsb' 0 n = w := by
    rw [BitVec.extractLsb'_append_extractLsb'_eq_extractLsb' rfl,
      BitVec.extractLsb'_append_extractLsb'_eq_extractLsb' (by omega), BitVec.extractLsb'_eq_self]
  have hand : w &&& (0#4 ++ BitVec.allOnes m ++ 0#n) = 0#4 ++ w.extractLsb' n m ++ 0#n := by
    conv_lhs => rw [← hfields]
    rw [BitVec.and_append, BitVec.and_append, BitVec.and_zero, BitVec.and_allOnes, BitVec.and_zero]
  rw [hand, ← BitVec.zero_append_zero, ← BitVec.zero_append_zero, BitVec.append_left_inj, BitVec.append_right_inj]

theorem wordLegal_eq_false_of_opcode {w : Word32} (h : 8 ≤ (opcodeOf w).toNat) : wordLegal w = false :=
  Bool.and_eq_false_imp.2 fun hle => absurd (of_decide_eq_true hle) (Nat.not_le.2 h)

theorem wordLegal_eq_false_of_reserved {w : Word32} (h : w &&& reservedMask (opcodeOf w) ≠ 0#32) : wordLegal w = false :=
  Bool.and_eq_false_imp.2 fun _ => beq_false_of_ne h

theorem wordLegal_iff_of_opcode {w : Word32} {k : Nat} (hop : (opcodeOf w).toNat = k) (hk : k ≤ 7) :
    wordLegal w = true ↔ w &&& reservedMask (BitVec.ofNat 4 k) = 0#32 := by
  have hle : (w.extractLsb' 28 4).toNat ≤ 7 := hop.trans_le hk
  simp only [wordLegal, opcodeOf_eq hop, opcodeOf, hle, decide_true, Bool.true_and, beq_iff_eq]

/-- The decoder accepts the Legal words: for each opcode its reserved field is the one `reservedMask` covers. -/
theorem wordLegal_iff_decodes (w : Word32) : wordLegal w = true ↔ ∃ i, decode w = .ok i := by
  unfold decode
  split
  case h_1 hop | h_5 hop | h_7 hop | h_8 hop =>
    rw [wordLegal_iff_of_opcode hop (by decide), exists_ifReservedZero_eq_ok]
    exact and_reservedMask_eq_zero_iff (m := 28) (n := 0) w
  case h_2 hop =>
    rw [wordLegal_iff_of_opcode hop (by decide), exists_ifReservedZero_eq_ok]
    exact and_reservedMask_eq_zero_iff (m := 19) (n := 9) w
  case h_3 hop =>
    rw [wordLegal_iff_of_opcode hop (by decide)]
    exact iff_of_true BitVec.and_zero ⟨_, rfl⟩
  case h_4 hop =>
    rw [wordLegal_iff_of_opcode hop (by decide), exists_ifReservedZero_eq_ok]
    exact and_reservedMask_eq_zero_iff (m := 18) (n := 10) w
  case h_6 hop =>
    rw [wordLegal_iff_of_opcode hop (by decide), exists_ifReservedZero_eq_ok]
    exact and_reservedMask_eq_zero_iff (m := 20) (n := 8) w
  case h_9 =>
    have hop : 8 ≤ (opcodeOf w).toNat := by grind
    simp [wordLegal_eq_false_of_opcode hop]

/-- Settles O4: each MASK fixes the opcode and the reserved field of its row's format. -/
theorem wordsMatchTableRows : Obligations.WordsMatchTableRows := by
  intro w
  refine ⟨and_allOnes_eq_encode_iff w .nop, ?_, ?_, and_setrootMask_eq_iff w, and_allOnes_eq_encode_iff w .start, ?_,
    and_allOnes_eq_encode_iff w .finish, and_allOnes_eq_encode_iff w .abort, wordLegal_iff_decodes w⟩
  · simp only [decode_eq_ok_iff]
    exact and_highMask_eq_iff (m := 23) (n := 9) w (0x1#4 ++ 0#19)
  · simp only [decode_eq_ok_iff]
    exact and_highMask_eq_iff (m := 4) (n := 28) w 0x2#4
  · simp only [decode_eq_ok_iff]
    exact and_highMask_eq_iff (m := 24) (n := 8) w (0x5#4 ++ 0#20)

/-! ### Words that are not Legal -/

theorem decode_of_not_legal {w : Word32} (h : wordLegal w = false) : ∃ r, decode w = .error r := by
  cases hd : decode w with
  | error r => exact ⟨r, rfl⟩
  | ok i =>
    have hl := (wordLegal_iff_decodes w).2 ⟨i, hd⟩
    simp [h] at hl

/-- Settles O5: the two checks of R69 are the two conjuncts of `wordLegal`, and `stepCommand` raises what `decode` rejects. -/
theorem reservedWordsRaiseIllegalCommand : Obligations.ReservedWordsRaiseIllegalCommand := by
  intro w s
  refine ⟨wordLegal_eq_false_of_opcode, fun _ => wordLegal_eq_false_of_reserved, fun hl => ?_⟩
  obtain ⟨r, hd⟩ := decode_of_not_legal hl
  rw [stepCommand_error s hd]
  exact ⟨fun hne => by rw [State.commandError_of_ne _ _ _ hne, State.raise_eq_withError],
    fun he => by rw [State.commandError_of_error _ _ _ he]⟩

end Sys2Proof.Machine
end

section
/-!
PROOFS. The assembler of spec/30_encoding.md section 5: the word that each form of R77 encodes.
-/
namespace Sys2Proof.Machine

/-! ### The words the forms of R77 encode -/

theorem assemble_of_wf {a : Asm} (h : a.wf = true) : assemble a = some (asmWords a) := if_pos h

theorem assemble_congr {a b : Asm} (hwf : a.wf = b.wf) (hw : asmWords a = asmWords b) : assemble a = assemble b := by
  rw [assemble, assemble, hwf, hw]

/-- A number below a field is the number in its lowest bits. -/
theorem ofNat_append_ofNat (m n a : Nat) {b : Nat} (hb : b < 2 ^ n) :
    BitVec.ofNat m a ++ BitVec.ofNat n b = BitVec.ofNat (m + n) (a * 2 ^ n + b) := by
  have hmod : (b + a * 2 ^ n) % (2 ^ n * 2 ^ m) = b + 2 ^ n * (a % 2 ^ m) := by
    rw [Nat.mod_mul, Nat.add_mul_mod_self_right, Nat.add_mul_div_right _ _ (Nat.two_pow_pos n), Nat.mod_eq_of_lt hb,
      Nat.div_eq_of_lt hb, Nat.zero_add]
  apply BitVec.eq_of_toNat_eq
  rw [BitVec.toNat_append, BitVec.toNat_ofNat, BitVec.toNat_ofNat, BitVec.toNat_ofNat, Nat.mod_eq_of_lt hb,
    ← Nat.shiftLeft_add_eq_or_of_lt hb, Nat.shiftLeft_eq, Nat.add_comm m n, Nat.pow_add, Nat.add_comm (a * _), hmod]
  ring

/-- An operand in range stands in bits that MATCH leaves 0, so R77's `|` is a sum. -/
theorem match_or_operand (w k : Nat) {n i : Nat} (h : i < 2 ^ n) :
    BitVec.ofNat w (k * 2 ^ n) ||| BitVec.ofNat w i = BitVec.ofNat w (k * 2 ^ n + i) := by
  rw [← BitVec.ofNat_or, Nat.mul_comm, Nat.two_pow_add_eq_or_of_lt h]

/-- Formats A, R and E: MATCH with the operand in the bits below it. -/
theorem append_eq_match_or_operand (m k : Nat) {n i : Nat} (h : i < 2 ^ n) :
    BitVec.ofNat m k ++ BitVec.ofNat n i = BitVec.ofNat (m + n) (k * 2 ^ n) ||| BitVec.ofNat (m + n) i := by
  rw [ofNat_append_ofNat m n k h, match_or_operand _ _ h]

/-- `{LV, RV, LEFT, RIGHT, SYM}` as a number (R68). -/
theorem nodeWord_ofNat (lv rv : Bool) {l r y : Nat} (hl : l < 512) (hr : r < 512) (hy : y < 256) :
    nodeWord lv rv (BitVec.ofNat 9 l) (BitVec.ofNat 9 r) (BitVec.ofNat 8 y) =
      BitVec.ofNat 28 ((lv.toNat * 2 + rv.toNat) * 2 ^ 26 + (l * 2 ^ 17 + r * 2 ^ 8 + y)) := by
  have hbit (b : Bool) : BitVec.ofBool b = BitVec.ofNat 1 b.toNat := by cases b <;> rfl
  unfold nodeWord
  rw [hbit, hbit, ofNat_append_ofNat _ _ _ (by simpa using rv.toNat_lt), ofNat_append_ofNat _ _ _ hl,
    ofNat_append_ofNat _ _ _ hr, ofNat_append_ofNat _ _ _ hy]
  exact congrArg (BitVec.ofNat 28) (by ring)

theorem encode_setaddr_ofNat {i : Nat} (h : i < 512) :
    encode (.setaddr (BitVec.ofNat 9 i)) = 0x10000000#32 ||| BitVec.ofNat 32 i :=
  append_eq_match_or_operand 23 0x080000 (n := 9) h

theorem encode_setroot_ofNat {i : Nat} (h : i < 512) :
    encode (.setroot true (BitVec.ofNat 9 i)) = 0x30000200#32 ||| BitVec.ofNat 32 i :=
  append_eq_match_or_operand 23 0x180001 (n := 9) h

theorem encode_bit_ofNat {e : Nat} (h : e < 256) :
    encode (.bit (BitVec.ofNat 8 e)) = 0x50000000#32 ||| BitVec.ofNat 32 e :=
  append_eq_match_or_operand 24 0x500000 (n := 8) h

/-- MATCH of WNODE with LV and RV is `0x20000000` and the two bits; below them stand LEFT, RIGHT and SYM. -/
theorem encode_wnode_ofNat (lv rv : Bool) {l r y : Nat} (hl : l < 512) (hr : r < 512) (hy : y < 256) :
    encode (.wnode (nodeWord lv rv (BitVec.ofNat 9 l) (BitVec.ofNat 9 r) (BitVec.ofNat 8 y))) =
      BitVec.ofNat 32 ((8 + lv.toNat * 2 + rv.toNat) * 2 ^ 26) ||| BitVec.ofNat 32 (l * 2 ^ 17 + r * 2 ^ 8 + y) := by
  have hop : (0x2#4 : BitVec 4) = BitVec.ofNat 4 2 := rfl
  have hnode {x : Nat} (hx : x < 2 ^ 26) : (lv.toNat * 2 + rv.toNat) * 2 ^ 26 + x < 2 ^ 28 := by
    have hlv := lv.toNat_lt
    have hrv := rv.toNat_lt
    omega
  have hlow : l * 2 ^ 17 + r * 2 ^ 8 + y < 2 ^ 26 := by omega
  rw [match_or_operand _ _ hlow, encode, nodeWord_ofNat lv rv hl hr hy, hop, ofNat_append_ofNat _ _ _ (hnode hlow)]
  exact congrArg (BitVec.ofNat 32) (by ring)

/-- The word of a WNODE line: an absent child has its index field 0 (R77). -/
theorem assemble_wnode {l r : Option Nat} {y : Nat} (h : (Asm.wnode ⟨l, r, y⟩).wf = true) :
    assemble (.wnode ⟨l, r, y⟩) = some [BitVec.ofNat 32 ((8 + l.isSome.toNat * 2 + r.isSome.toNat) * 2 ^ 26) |||
      BitVec.ofNat 32 (l.getD 0 * 2 ^ 17 + r.getD 0 * 2 ^ 8 + y)] := by
  have hchild (c : Option Nat) : childBits c = (c.isSome, BitVec.ofNat 9 (c.getD 0)) := by cases c <;> rfl
  have hlt {c : Option Nat} (hc : childArgWf c = true) : c.getD 0 < 512 := by
    cases c with
    | none => decide
    | some i => simpa [childArgWf] using hc
  obtain ⟨⟨hl, hr⟩, hy⟩ : (childArgWf l = true ∧ childArgWf r = true) ∧ y < 256 := by
    simpa [Asm.wf, NodeArgs.wf] using h
  rw [assemble_of_wf h, asmWords, NodeArgs.word, hchild, hchild, encode_wnode_ofNat _ _ (hlt hl) (hlt hr) hy]

theorem disassemble_of_not_legal {w : Word32} (h : wordLegal w = false) : disassemble w = .word w.toNat := by
  obtain ⟨r, hd⟩ := decode_of_not_legal h
  rw [disassemble, hd]

/-- Settles O6: the word of each form is a sum of MATCH and its operand fields. -/
theorem assemblerEncodesEachForm : Obligations.AssemblerEncodesEachForm := by
  refine ⟨rfl, fun i hi => ?setaddr, fun l r y hl hr hy => ⟨?both, ?left, ?right, ?leaf⟩, fun y => ?wnodeLeaf,
    fun l r => ?wnodeNode, fun i hi => ?setroot, rfl, rfl, fun e he => ?bit, rfl, rfl, rfl, rfl, fun w hw => ?word,
    fun w => disassemble_of_not_legal⟩
  case setaddr => rw [assemble_of_wf (by simpa [Asm.wf] using hi), asmWords, encode_setaddr_ofNat hi]
  case setroot => rw [assemble_of_wf (by simpa [Asm.wf, childArgWf] using hi), asmWords, childBits, encode_setroot_ofNat hi]
  case bit => rw [assemble_of_wf (by simpa [Asm.wf, BitArg.wf] using he), asmWords, BitArg.elem, encode_bit_ofNat he]
  case both => simpa using assemble_wnode (l := some l) (r := some r) (by simp [Asm.wf, NodeArgs.wf, childArgWf, hl, hr, hy])
  case left => simpa using assemble_wnode (l := some l) (r := none) (by simp [Asm.wf, NodeArgs.wf, childArgWf, hl, hy])
  case right => simpa using assemble_wnode (l := none) (r := some r) (by simp [Asm.wf, NodeArgs.wf, childArgWf, hr, hy])
  case leaf => simpa using assemble_wnode (l := none) (r := none) (by simp [Asm.wf, NodeArgs.wf, childArgWf, hy])
  case wnodeLeaf => exact assemble_congr (by simp [Asm.wf, NodeArgs.wf, childArgWf]) rfl
  case wnodeNode => exact assemble_congr (by simp [Asm.wf, NodeArgs.wf]) rfl
  case word => exact assemble_of_wf (by simpa [Asm.wf] using hw)

end Sys2Proof.Machine
end

section
/-!
PROOFS. The disassembler (spec/30_encoding.md R77, log 9): a command prints as its own line exactly when that line encodes its
word, which is when the index field of every absent child is 0.
-/
namespace Sys2Proof.Machine

/-! ### The fields of a node word -/

theorem nodeWord_fields (n : NodeWord) : nodeWord (nodeLV n) (nodeRV n) (nodeLeft n) (nodeRight n) (nodeSym n) = n := by
  rw [nodeWord, nodeLV, nodeRV, nodeLeft, nodeRight, nodeSym, ofBool_getLsbD, ofBool_getLsbD,
    BitVec.extractLsb'_append_extractLsb'_eq_extractLsb' (by decide),
    BitVec.extractLsb'_append_extractLsb'_eq_extractLsb' (by decide),
    BitVec.extractLsb'_append_extractLsb'_eq_extractLsb' (by decide),
    BitVec.extractLsb'_append_extractLsb'_eq_extractLsb' (by decide)]
  exact BitVec.extractLsb'_eq_self

theorem nodeLeft_nodeWord (lv rv : Bool) (l r : NodeIdx) (y : Symb) : nodeLeft (nodeWord lv rv l r y) = l := by
  rw [nodeLeft, nodeWord, BitVec.extractLsb'_append_eq_of_le (by decide), BitVec.extractLsb'_append_eq_of_le (by decide)]
  exact BitVec.extractLsb'_append_eq_right

theorem nodeRight_nodeWord (lv rv : Bool) (l r : NodeIdx) (y : Symb) : nodeRight (nodeWord lv rv l r y) = r := by
  rw [nodeRight, nodeWord, BitVec.extractLsb'_append_eq_of_le (by decide)]
  exact BitVec.extractLsb'_append_eq_right

/-! ### The line of a command -/

/-- An absent child is written back with index 0 (R77). -/
theorem childBits_childArg (present : Bool) (i : NodeIdx) :
    childBits (childArg present i) = (present, if present = true then i else 0#9) := by
  cases present with
  | false => rfl
  | true => exact congrArg (Prod.mk true) (by simp)

theorem childArgWf_childArg (present : Bool) (i : NodeIdx) : childArgWf (childArg present i) = true := by
  cases present with
  | false => rfl
  | true => exact decide_eq_true i.isLt

theorem asmOfInstr_wf (i : Instr) : (asmOfInstr i).wf = true := by
  cases i with
  | nop | start | finish | abort => rfl
  | setaddr a => exact decide_eq_true a.isLt
  | wnode n => simp [asmOfInstr, Asm.wf, NodeArgs.wf, childArgWf_childArg, (nodeSym n).isLt]
  | setroot rv i => exact childArgWf_childArg rv i
  | bit e => exact decide_eq_true e.isLt

/-- The index field of an absent child is 0: the fields that are ignored hold nothing that the line would lose (R68). -/
def ignoredFieldsZero (n : NodeWord) : Prop :=
  (nodeLV n = false → nodeLeft n = 0#9) ∧ (nodeRV n = false → nodeRight n = 0#9)

theorem asmWords_asmOfInstr_wnode (n : NodeWord) : asmWords (asmOfInstr (.wnode n)) =
    [encode (.wnode (nodeWord (nodeLV n) (nodeRV n) (if nodeLV n = true then nodeLeft n else 0#9)
      (if nodeRV n = true then nodeRight n else 0#9) (nodeSym n)))] := by
  rw [asmOfInstr, asmWords, NodeArgs.word, childBits_childArg, childBits_childArg, BitVec.ofNat_toNat, BitVec.setWidth_eq]

theorem ite_eq_left_iff_zero {b : Bool} {i : NodeIdx} : (if b = true then i else 0#9) = i ↔ (b = false → i = 0#9) := by
  cases b with
  | false => exact ⟨fun h _ => h.symm, fun h => (h rfl).symm⟩
  | true => simp

theorem asmWords_wnode_eq_iff (n : NodeWord) :
    asmWords (asmOfInstr (.wnode n)) = [encode (.wnode n)] ↔ ignoredFieldsZero n := by
  rw [asmWords_asmOfInstr_wnode, List.singleton_inj, encode_injective.eq_iff, Instr.wnode.injEq, ignoredFieldsZero,
    ← ite_eq_left_iff_zero, ← ite_eq_left_iff_zero]
  constructor
  · intro h
    have hl := congrArg nodeLeft h
    have hr := congrArg nodeRight h
    rw [nodeLeft_nodeWord] at hl
    rw [nodeRight_nodeWord] at hr
    exact ⟨hl, hr⟩
  · rintro ⟨hl, hr⟩
    rw [hl, hr, nodeWord_fields]

theorem asmWords_setroot_eq_iff (rv : Bool) (i : NodeIdx) :
    asmWords (asmOfInstr (.setroot rv i)) = [encode (.setroot rv i)] ↔ (rv = false → i = 0#9) := by
  rw [asmOfInstr, asmWords, childBits_childArg, List.singleton_inj, encode_injective.eq_iff, Instr.setroot.injEq,
    ite_eq_left_iff_zero]
  simp

/-! ### The line of a word -/

theorem disassemble_encode {i : Instr} (h : asmWords (asmOfInstr i) = [encode i]) : disassemble (encode i) = asmOfInstr i := by
  rw [disassemble, decodeOfEncode i]
  exact if_pos h

theorem disassemble_encode_word {i : Instr} (h : asmWords (asmOfInstr i) ≠ [encode i]) :
    disassemble (encode i) = .word (encode i).toNat := by
  rw [disassemble, decodeOfEncode i]
  exact if_neg h

theorem assemble_word_toNat (w : Word32) : assemble (.word w.toNat) = some [w] := by
  rw [assemble_of_wf (a := .word w.toNat) (decide_eq_true w.isLt), asmWords, BitVec.ofNat_toNat, BitVec.setWidth_eq]

/-- Whatever the disassembler prints assembles back to the word: it prints a command's line only when that line does. -/
theorem assemble_disassemble (w : Word32) : assemble (disassemble w) = some [w] := by
  unfold disassemble
  split
  · exact assemble_word_toNat w
  next i hd =>
    split
    next hw => rw [assemble_of_wf (asmOfInstr_wf i), hw]
    · exact assemble_word_toNat w

/-- Settles O8, command by command; only WNODE and SETROOT have a field that can be ignored. -/
theorem disassembleEachForm : Obligations.DisassembleEachForm := by
  refine ⟨disassemble_encode rfl, fun a => disassemble_encode (by simp [asmOfInstr, asmWords]),
    fun n => ⟨fun h => ?wnode, fun h => ?ignored⟩, fun i => ?present, ?absent, fun i hi => ?absentIgnored,
    disassemble_encode rfl, fun e => disassemble_encode (by simp [asmOfInstr, asmWords, BitArg.elem]),
    disassemble_encode rfl, disassemble_encode rfl, fun w => disassemble_of_not_legal, assemble_disassemble⟩
  case wnode => exact disassemble_encode ((asmWords_wnode_eq_iff n).2 h)
  case ignored =>
    refine disassemble_encode_word fun hw => ?_
    obtain ⟨hl, hr⟩ := (asmWords_wnode_eq_iff n).1 hw
    obtain ⟨hlv, hne⟩ | ⟨hrv, hne⟩ := h
    · exact hne (hl hlv)
    · exact hne (hr hrv)
  case present => exact disassemble_encode ((asmWords_setroot_eq_iff true i).2 (by simp))
  case absent => exact disassemble_encode ((asmWords_setroot_eq_iff false 0#9).2 (by simp))
  case absentIgnored => exact disassemble_encode_word fun hw => hi ((asmWords_setroot_eq_iff false i).1 hw rfl)

end Sys2Proof.Machine
end

section
/-!
PROOFS. The pseudo-instructions of spec/30_encoding.md R78: each is the program of its expansion, and LOADTREE writes its nodes
one after another at the auto-incremented NADDR (spec/40_tree_load.md R86).
-/
namespace Sys2Proof.Machine

/-! ### The expansions -/

/-- A program assembles when each of its lines is well formed, and to the words of its lines. -/
theorem assembleAll_eq (ls : List Asm) :
    assembleAll ls = if ls.all Asm.wf = true then some (ls.flatMap asmWords) else none := by
  induction ls with
  | nil => rfl
  | cons a ls ih =>
    have hcons : assembleAll (a :: ls) = (assemble a).bind fun ws => (assembleAll ls).map (ws ++ ·) := by
      simp only [assembleAll, List.mapM_cons]
      cases assemble a <;> cases ls.mapM assemble <;> rfl
    rw [hcons, ih, assemble, List.all_cons]
    cases a.wf <;> cases ls.all Asm.wf <;> simp

theorem assemble_eq_assembleAll {a : Asm} {ls : List Asm} (hwf : a.wf = ls.all Asm.wf)
    (hw : asmWords a = ls.flatMap asmWords) : assemble a = assembleAll ls := by
  rw [assembleAll_eq, assemble, hwf, hw]

theorem assemble_loadnode (i : Nat) (n : NodeArgs) : assemble (.loadnode i n) = assembleAll [.setaddr i, .wnode n] :=
  assemble_eq_assembleAll (by simp [Asm.wf]) rfl

/-- The words of a program whose lines each encode one word. -/
theorem flatMap_asmWords {α : Type} {line : α → Asm} {word : α → Word32} (h : ∀ x, asmWords (line x) = [word x])
    (xs : List α) : (xs.map line).flatMap asmWords = xs.map word := by
  rw [List.flatMap_map, List.map_eq_flatMap, funext h]

theorem assemble_loadtree (base : Nat) (ns : List NodeArgs) :
    assemble (.loadtree base ns) = assembleAll (.setaddr base :: ns.map .wnode) := by
  refine assemble_eq_assembleAll (by simp [Asm.wf, List.all_map, Function.comp_def]) ?_
  rw [List.flatMap_cons, flatMap_asmWords fun _ => rfl]
  rfl

theorem assemble_bits (cs : List Nat) : assemble (.bits cs) = assembleAll (cs.map fun c => .bit (.byte c)) :=
  assemble_eq_assembleAll (by simp [Asm.wf, BitArg.wf, List.all_map, Function.comp_def])
    (flatMap_asmWords (fun _ => rfl) cs).symm

theorem assemble_decode (cs : List Nat) : assemble (.decode cs) = assembleAll [.start, .bits cs, .finish] :=
  assemble_eq_assembleAll (by simp [Asm.wf]) rfl

/-! ### Writing node after node -/

/-- What a run of WNODE commands does to the machine (R86). -/
def State.writeNodes (s : State) (ns : List NodeWord) : State := ns.foldl State.writeNode s

section
variable (s : State) (ns : List NodeWord)

@[simp] theorem State.writeNodes_cons (n : NodeWord) : s.writeNodes (n :: ns) = (s.writeNode n).writeNodes ns := rfl

@[simp] theorem State.writeNodes_state : (s.writeNodes ns).state = s.state := by
  induction ns generalizing s with
  | nil => rfl
  | cons n ns ih => exact ih _

@[simp] theorem State.writeNodes_host : (s.writeNodes ns).host = s.host := by
  induction ns generalizing s with
  | nil => rfl
  | cons n ns ih => exact ih _

end

theorem State.writeNode_naddr_ofNat {s : State} {base : Nat} (n : NodeWord) (h : s.naddr = BitVec.ofNat 9 base) :
    (s.writeNode n).naddr = BitVec.ofNat 9 (base + 1) := by
  rw [State.writeNode_naddr, h, BitVec.ofNat_add]

theorem State.writeNodes_naddr {s : State} {base : Nat} (ns : List NodeWord) (h : s.naddr = BitVec.ofNat 9 base) :
    (s.writeNodes ns).naddr = BitVec.ofNat 9 (base + ns.length) := by
  induction ns generalizing s base with
  | nil => exact h
  | cons n ns ih =>
    rw [State.writeNodes_cons, ih (s.writeNode_naddr_ofNat n h), List.length_cons, Nat.add_right_comm, Nat.add_assoc]

/-- The run keeps every entry that is not at an address it passes. -/
theorem memRead_writeNodes_other {s : State} {base : Nat} {ns : List NodeWord} {i : NodeIdx} (h : s.naddr = BitVec.ofNat 9 base)
    (hi : ∀ j < ns.length, i ≠ BitVec.ofNat 9 (base + j)) : memRead (s.writeNodes ns).nodeMem i = memRead s.nodeMem i := by
  induction ns generalizing s base with
  | nil => rfl
  | cons n ns ih =>
    have hne : i ≠ s.naddr := by
      rw [h]
      exact hi 0 (Nat.zero_lt_succ _)
    have hrest : ∀ j < ns.length, i ≠ BitVec.ofNat 9 (base + 1 + j) := fun j hj => by
      rw [Nat.add_right_comm]
      exact hi (j + 1) (Nat.succ_lt_succ hj)
    rw [State.writeNodes_cons, ih (s.writeNode_naddr_ofNat n h) hrest, State.writeNode_nodeMem, memRead_memWrite_other _ _ hne]

/-- No more than 512 nodes fit without one of them being written over. -/
theorem memRead_writeNodes {s : State} {base : Nat} {ns : List NodeWord} (h : s.naddr = BitVec.ofNat 9 base)
    (hlen : ns.length ≤ 512) (j : Nat) (hj : j < ns.length) :
    memRead (s.writeNodes ns).nodeMem (BitVec.ofNat 9 (base + j)) = some ns[j] := by
  induction ns generalizing s base j with
  | nil => cases hj
  | cons n ns ih =>
    have hnext := s.writeNode_naddr_ofNat n h
    rw [List.length_cons] at hlen hj
    rw [State.writeNodes_cons]
    cases j with
    | zero =>
      have hne : ∀ k < ns.length, BitVec.ofNat 9 base ≠ BitVec.ofNat 9 (base + 1 + k) := fun k hk he => by
        have hmod : base % 512 = (base + 1 + k) % 512 := congrArg BitVec.toNat he
        omega
      rw [Nat.add_zero, memRead_writeNodes_other hnext hne, State.writeNode_nodeMem, h, memRead_memWrite_same]
      rfl
    | succ j =>
      have hread := ih hnext (by omega) j (by omega)
      rwa [Nat.add_right_comm] at hread

/-- Outside a session the command port takes a list of WNODE words one a step. -/
theorem core_run_wnodes {s : State} (ns : List NodeWord) (hh : s.host = ns.map fun n => presents (encode (.wnode n)))
    (ho : outside s.state) : core.run ns.length s = .next ((s.setHost []).writeNodes ns) := by
  induction ns generalizing s with
  | nil =>
    have hs : s.setHost s.host = s := rfl
    rw [hh] at hs
    exact congrArg Host.Outcome.next hs.symm
  | cons n ns ih =>
    rw [List.length_cons, core_run_succ _ (step_presents_wnode hh ho)]
    exact ih rfl ho

/-- LOADTREE outside a session (R78): SETADDR and then the WNODE words. -/
theorem core_run_loadtree (s : State) (a : NodeIdx) (ns : List NodeWord) (ho : outside s.state) :
    core.run (ns.length + 1) { s with host := (encode (.setaddr a) :: ns.map fun n => encode (.wnode n)).map presents } =
      .next (((s.setHost []).setNaddr a).writeNodes ns) := by
  rw [core_run_succ _ (step_presents_setaddr rfl)]
  exact core_run_wnodes ns (List.map_map) ho

/-- Settles O7: the expansions line by line, and the run of LOADTREE as `writeNodes` from NADDR = base. -/
theorem pseudoInstructionsExpand : Obligations.PseudoInstructionsExpand := by
  refine ⟨assemble_loadnode, assemble_loadtree, assemble_bits, assemble_decode, fun s base ns ws ho hlen hws => ?_⟩
  obtain ⟨-, rfl⟩ : (Asm.loadtree base ns).wf = true ∧ asmWords (.loadtree base ns) = ws := by simpa [assemble] using hws
  have hrun := core_run_loadtree s (BitVec.ofNat 9 base) (ns.map NodeArgs.word) ho
  rw [List.map_map, List.length_map] at hrun
  have haddr : ((s.setHost []).setNaddr (BitVec.ofNat 9 base)).naddr = BitVec.ofNat 9 base := rfl
  have hindex (k : Nat) : BitVec.ofNat 9 (k % 512) = BitVec.ofNat 9 k := BitVec.eq_of_toNat_eq (Nat.mod_mod k 512)
  refine ⟨((s.setHost []).setNaddr (BitVec.ofNat 9 base)).writeNodes (ns.map NodeArgs.word), ?run, by simp, by simp, ?naddr,
    fun j hj => ?written, fun i hi => ?kept⟩
  case run =>
    rw [asmWords, List.length_cons, List.length_map]
    exact hrun
  case naddr => rw [State.writeNodes_naddr _ haddr, List.length_map, BitVec.toNat_ofNat]
  case written => rw [hindex, memRead_writeNodes haddr (by simpa using hlen) j (by simpa using hj), List.getElem_map]
  case kept =>
    refine memRead_writeNodes_other haddr fun j hj he => hi j (by simpa using hj) ?_
    rw [he, BitVec.toNat_ofNat]

end Sys2Proof.Machine
end

section
/-!
PROOFS. The tree-load commands of spec/40_tree_load.md: SETADDR, WNODE and SETROOT. Their lemmas on the verdict V, on reserved
bits and on the operand in a word are about any command.
-/
namespace Sys2Proof.Machine

/-! ### The verdicts of R76 -/

/-- R126, for every command it lists. -/
theorem exec_of_violates {i : Instr} {s : State} (h : violates i s.state) :
    exec i s = .next (s.withError .stateViolation (encode i)) := by
  have hv : verdict i s.state = .violation := (verdict_violation_iff _ _).2 h
  have hguard (body : Answer) : guarded i s body = .next (s.withError .stateViolation (encode i)) := by
    rw [guarded_violation _ hv, State.commandError_of_ne _ _ _ (ne_error_of_violation hv), State.raise_eq_withError]
  cases i <;> exact hguard _

theorem exec_wnode_active {s : State} (n : NodeWord) (h : s.active = true) :
    exec (.wnode n) s = .next (s.withError .stateViolation (encode (.wnode n))) :=
  exec_of_violates (s.active_iff.1 h)

theorem exec_setroot_active {s : State} (rv : Bool) (i : NodeIdx) (h : s.active = true) :
    exec (.setroot rv i) s = .next (s.withError .stateViolation (encode (.setroot rv i))) :=
  exec_of_violates (s.active_iff.1 h)

theorem exec_setroot_outside {s : State} (rv : Bool) (i : NodeIdx) (h : outside s.state) :
    exec (.setroot rv i) s = .next (s.setRoot rv i) :=
  guarded_execute _ (by obtain h | h | h := h <;> simp [verdict, h])

/-! ### A reserved bit is an IllegalCommand -/

/-- A word whose format has a reserved field, with a bit of that field set (R71). -/
theorem illegalIn_of_reserved {w : Word32} {n : Nat} {res : BitVec n} {i : Instr} (s : State)
    (hd : decode w = ifReservedZero res i) (hres : res ≠ 0#n) : illegalIn w s := by
  have hl : ¬ wordLegal w = true := by
    rwa [wordLegal_iff_decodes, hd, exists_ifReservedZero_eq_ok]
  obtain ⟨-, -, hillegal⟩ := reservedWordsRaiseIllegalCommand w s
  exact hillegal (eq_false_of_ne_true hl)

theorem decode_of_opcode_setaddr {w : Word32} (h : opcodeOf w = 0x1#4) :
    decode w = ifReservedZero (w.extractLsb' 9 19) (.setaddr (w.extractLsb' 0 9)) := by
  rw [decode, h]
  rfl

theorem decode_of_opcode_wnode {w : Word32} (h : opcodeOf w = 0x2#4) : decode w = .ok (.wnode (w.extractLsb' 0 28)) := by
  rw [decode, h]
  rfl

theorem decode_of_opcode_setroot {w : Word32} (h : opcodeOf w = 0x3#4) :
    decode w = ifReservedZero (w.extractLsb' 10 18) (.setroot (w.getLsbD 9) (w.extractLsb' 0 9)) := by
  rw [decode, h]
  rfl

/-! ### The words of R77 -/

/-- MATCH with the zero-extended operand in the bits below it. -/
theorem append_eq_match_or_setWidth (m k : Nat) {n : Nat} (x : BitVec n) :
    BitVec.ofNat m k ++ x = BitVec.ofNat (m + n) (k * 2 ^ n) ||| x.setWidth (m + n) := by
  have h := append_eq_match_or_operand m k x.isLt
  rwa [BitVec.ofNat_toNat, BitVec.ofNat_toNat, BitVec.setWidth_eq] at h

theorem encode_setaddr (a : NodeIdx) : encode (.setaddr a) = 0x10000000#32 ||| a.setWidth 32 :=
  append_eq_match_or_setWidth 23 0x080000 a

theorem encode_wnode (n : NodeWord) : encode (.wnode n) = 0x20000000#32 ||| n.setWidth 32 :=
  append_eq_match_or_setWidth 4 0x2 n

/-- RV stands just above IDX, so `0x30000000` and RV are the MATCH of the row with this RV. -/
theorem encode_setroot (rv : Bool) (i : NodeIdx) :
    encode (.setroot rv i) = 0x30000000#32 ||| (BitVec.ofBool rv).setWidth 32 <<< 9 ||| i.setWidth 32 := by
  cases rv with
  | false => exact append_eq_match_or_setWidth 23 0x180000 i
  | true => exact append_eq_match_or_setWidth 23 0x180001 i

/-! ### The three commands -/

/-- Settles O18: SETADDR has the verdict X in every STATE. -/
theorem setaddrSetsNodeAddress : Obligations.SetaddrSetsNodeAddress :=
  ⟨exec_setaddr, encode_setaddr, fun _ s hop hres => illegalIn_of_reserved s (decode_of_opcode_setaddr hop) hres⟩

/-- Settles O19: outside a session WNODE is `writeNode`, and format N has no reserved field. -/
theorem wnodeStoresAtNodeAddress : Obligations.WnodeStoresAtNodeAddress := by
  refine ⟨fun n s ho => ?_, fun n _ => exec_wnode_active n, encode_wnode,
    fun w hop => (wordLegal_iff_decodes w).2 ⟨_, decode_of_opcode_wnode hop⟩⟩
  have hnext : (s.naddr + 1#9).toNat = (s.naddr.toNat + 1) % 512 := BitVec.toNat_add _ _
  exact ⟨_, _, exec_wnode_outside n ho, hnext, memRead_memWrite_same _ _ n, fun _ => memRead_memWrite_other _ n⟩

/-- Settles O20: outside a session SETROOT is `setRoot`, whatever RV is. -/
theorem setrootNamesRoot : Obligations.SetrootNamesRoot :=
  ⟨fun rv i _ => exec_setroot_outside rv i, fun rv i _ => exec_setroot_active rv i, encode_setroot,
    fun _ s hop hres => illegalIn_of_reserved s (decode_of_opcode_setroot hop) hres⟩

end Sys2Proof.Machine
end

section
/-!
PROOFS. The session commands of spec/41_session.md: NOP, START, FINISH and ABORT, and how a session ends.
-/
namespace Sys2Proof.Machine

/-! ### The words of format Z -/

/-- The commands of format Z, whose whole payload is reserved (R67). -/
def formatZ (i : Instr) : Prop := i = .nop ∨ i = .start ∨ i = .finish ∨ i = .abort

theorem decode_of_opcode_formatZ {w : Word32} {i : Instr} (hi : formatZ i)
    (hop : opcodeOf w = Laws.EncodedOpcode.rowOpcode i) : decode w = ifReservedZero (w.extractLsb' 0 28) i := by
  rw [decode, hop]
  obtain rfl | rfl | rfl | rfl := hi <;> rfl

/-- A payload bit in a word of format Z is an IllegalCommand. -/
theorem illegalIn_of_payload {w : Word32} {i : Instr} (s : State) (hi : formatZ i)
    (hop : opcodeOf w = Laws.EncodedOpcode.rowOpcode i) (hpay : w.extractLsb' 0 28 ≠ 0#28) : illegalIn w s :=
  illegalIn_of_reserved s (decode_of_opcode_formatZ hi hop) hpay

/-- Outside reset only BIT waits for room in FIFO (R36, R148). -/
theorem cmdReady_of_opcode_ne_bit {w : Word32} (s : State) (h : opcodeOf w ≠ 0x5#4) : cmdReady false w s = true := by
  have hfree : holds w s = false := holds_eq_false_iff.2 fun _ hbit => absurd hbit h
  simp [cmdReady, hfree]

/-! ### The four commands -/

theorem exec_nop (s : State) : exec .nop s = .next s := rfl

theorem exec_abort (s : State) : exec .abort s = .next ((s.clearSession.setCur 0#9).setState .idle) := rfl

/-- Settles O21: NOP has the verdict X in every STATE and a rule that writes nothing. -/
theorem nopChangesNothing : Obligations.NopChangesNothing :=
  ⟨exec_nop, rfl, fun s => cmdReady_of_opcode_ne_bit s (by decide),
    fun _ s hop hpay => illegalIn_of_payload (i := .nop) s (.inl rfl) hop hpay⟩

/-- Settles O22: outside a session START has the verdict X, in one the verdict V. -/
theorem startOpensSession : Obligations.StartOpensSession :=
  ⟨fun _ ho => exec_start_outside ho, fun s ha => exec_of_violates (s.active_iff.1 ha), rfl,
    fun _ s hop hpay => illegalIn_of_payload (i := .start) s (.inr (.inl rfl)) hop hpay⟩

/-- Settles O23, STATE by STATE. -/
theorem finishClosesSession : Obligations.FinishClosesSession := by
  refine ⟨fun s hs => ?skip, fun s hr hc => ?atRoot, fun s hr hc => ?elsewhere, fun s he => ?error,
    fun s hv => ?violation, rfl,
    fun _ s hop hpay => illegalIn_of_payload (i := .finish) s (.inr (.inr (.inl rfl))) hop hpay⟩
  case skip => exact exec_finish_done (.inr hs) (.inl hs)
  case atRoot => exact exec_finish_done (.inl hr) (.inr hc)
  case elsewhere => exact exec_finish_incomplete hr hc
  case error => exact exec_error he (.inl rfl)
  case violation => exact exec_of_violates hv

/-- Settles O24: ABORT has the verdict X in every STATE. -/
theorem abortReturnsToIdle : Obligations.AbortReturnsToIdle :=
  ⟨exec_abort, rfl, fun s => cmdReady_of_opcode_ne_bit s (by decide),
    fun _ s hop hpay => illegalIn_of_payload (i := .abort) s (.inr (.inr (.inr rfl))) hop hpay⟩

/-! ### How a session ends -/

/-- Settles O46: of the writers of STATE that `onlyListedRulesWriteState` lists, START alone leaves a session active. -/
theorem sessionEndsOnlyByListedEvents : Obligations.SessionEndsOnlyByListedEvents := by
  intro s t hs h ht
  have hne : t.state ≠ s.state := by
    intro he
    have hactive : t.active = s.active := by rw [State.active, State.active, he]
    simp [hactive, hs] at ht
  rcases onlyListedRulesWriteState s t h hne with hreset | ⟨-, hopen⟩ | hfinish | habort | ⟨herr, hcode, -⟩
  · exact .inr (.inr (.inr hreset))
  · exact absurd (t.active_iff.2 hopen) (by simp [ht])
  · exact .inl hfinish
  · exact .inr (.inr (.inl habort))
  · exact .inr (.inl ⟨herr, hcode⟩)

end Sys2Proof.Machine
end

section
/-!
PROOFS. The walk of spec/42_bit_walk.md: what BIT does in each STATE and at each node, and that a BIT pushes at most one symbol.
-/
namespace Sys2Proof.Machine

theorem isLeaf_eq_true_iff (n : NodeWord) : isLeaf n = true ↔ n.getLsbD 27 = false ∧ n.getLsbD 26 = false := by
  simp [isLeaf, nodeLV, nodeRV]

theorem isLeaf_eq_false_iff (n : NodeWord) : isLeaf n = false ↔ n.getLsbD 27 = true ∨ n.getLsbD 26 = true := by
  rw [← Bool.not_eq_true, isLeaf_eq_true_iff]
  cases n.getLsbD 27 <;> simp

/-- R122, for either element. -/
theorem exec_bit_absent {s : State} {e : Elem} {n : NodeWord} (hr : s.state = .run)
    (hf : s.fifo.length ≠ s.fifoDepth.val) (hn : memRead s.nodeMem s.cur = some n) (ha : selectsAbsent e n) :
    exec (.bit e) s = .next (s.withError .malformed (elemErrData s.cur e)) :=
  exec_bit_of_effect (.malformed hr (fifoFull_eq_false hf) hn ha)

/-! ### Arriving at a child in RUN -/

/-- Settles O25: the effect is `Effect.emitted`. -/
theorem bitEmitsSymbolAtLeaf : Obligations.BitEmitsSymbolAtLeaf := by
  intro s e n m i hr hf hn hsel hm hl hrv
  exact exec_bit_of_effect (.emitted hr (fifoFull_eq_false hf) hn hsel hm ((isLeaf_eq_true_iff m).2 ⟨hl, hrv⟩))

/-- Settles O26: the effect is `Effect.descended`. -/
theorem bitDescendsToInnerNode : Obligations.BitDescendsToInnerNode := by
  intro s e n m i hr hf hn hsel hm hchild
  exact exec_bit_of_effect (.descended hr (fifoFull_eq_false hf) hn hsel hm ((isLeaf_eq_false_iff m).2 hchild))

/-! ### BIT outside RUN -/

theorem encode_bit (e : Elem) : encode (.bit e) = 0x50000000#32 ||| e.setWidth 32 :=
  append_eq_match_or_setWidth 24 0x500000 e

theorem decode_of_opcode_bit {w : Word32} (h : opcodeOf w = 0x5#4) :
    decode w = ifReservedZero (w.extractLsb' 8 20) (.bit (w.extractLsb' 0 8)) := by
  rw [decode, h]
  rfl

/-- Settles O27, STATE by STATE. -/
theorem bitOutsideRun : Obligations.BitOutsideRun := by
  refine fun s e => ⟨fun hs => ?skip, fun he => ?error, fun hv => ?violation, encode_bit e,
    fun w hop hres => illegalIn_of_reserved s (decode_of_opcode_bit hop) hres⟩
  case skip => exact exec_bit_skip e hs
  case error => exact exec_error he (.inr ⟨e, rfl⟩)
  case violation => exact exec_of_violates hv

/-! ### The roots of R101 and R104 -/

/-- Settles O30: `0` emits the leaf's symbol and the child that `1` selects is absent. -/
theorem singleSymbolWrapperWalk : Obligations.SingleSymbolWrapperWalk := by
  intro s n m hr hf hcur hn hl hrv hm hml hmr
  rw [← hcur] at hn
  refine ⟨bitEmitsSymbolAtLeaf s _ n m _ hr hf hn (.inl ⟨rfl, hl, rfl⟩) hm hml hmr, ?_⟩
  rw [exec_bit_absent hr hf hn (.inr ⟨rfl, hrv⟩), elemErrData, hcur]

theorem selectsAbsent_of_leaf {e : Elem} {n : NodeWord} (hl : n.getLsbD 27 = false) (hr : n.getLsbD 26 = false)
    (he : e = 0x30#8 ∨ e = 0x31#8) : selectsAbsent e n :=
  he.imp (⟨·, hl⟩) (⟨·, hr⟩)

/-- Settles O31: START leaves the walk at the leaf with FIFO empty, and a leaf has no child to select. -/
theorem bareLeafRootIsMalformed : Obligations.BareLeafRootIsMalformed := by
  intro s t e n ho hv hn hl hr he hstart
  rw [exec_start_outside ho] at hstart
  cases hstart
  exact exec_bit_absent (by simp [openState, hv]) (Nat.ne_of_lt s.fifoDepth.positive) hn (selectsAbsent_of_leaf hl hr he)

/-! ### At most one push -/

/-- What a BIT does to FIFO and SYMCNT: with a push the walk is back at the root (R103). -/
theorem Effect.bit_push_cases {e : Elem} {s t : State} (h : Effect (.bit e) s t) :
    (t.fifo = s.fifo ∧ t.symcnt = s.symcnt) ∨
    (∃ y, t.fifo = s.fifo ++ [y] ∧ t.symcnt = s.symcnt + 1#32 ∧ t.cur = s.rootIdx) := by
  cases h with
  | emitted => exact .inr ⟨_, rfl, rfl, rfl⟩
  | discarded | violation | skipped | invalid | malformed | descended => exact .inl ⟨rfl, rfl⟩

/-- Settles O44: a push is counted together with its element, so SYMCNT does not overtake BITPOS. -/
theorem atMostOneSymbolPerElement : Obligations.AtMostOneSymbolPerElement := by
  refine ⟨fun e s t h => (exec_cases h).bit_push_cases, fun s t h hle hmax => ?_⟩
  obtain ⟨hb, hy⟩ | ⟨hb, hy | hy, -⟩ | ⟨hb, hy, -⟩ := countersCountUpOrClear s t h
  · rwa [hb, hy]
  · rw [hb, hy]
    bv_omega
  · rw [hb, hy]
    bv_omega
  · simp [hb, hy]

end Sys2Proof.Machine
end

section
/-!
PROOFS. The codes of a message decode to it (spec/42_bit_walk.md R105, log 14): what `decodeFrom` does along one code of the
tree, with `sessionComputesDecode` for what HDEC does.
-/
namespace Sys2Proof.Machine

/-! ### The codes of a tree -/

/-- The empty code is a bare leaf's alone. -/
theorem CodeTree.mem_codes_nil {t : CodeTree} {y : Symb} : (y, []) ∈ t.codes ↔ t = .leaf y := by
  cases t <;> simp [codes, eq_comm]

/-- The first element of a code selects a child, and the rest is a code of that child. -/
theorem CodeTree.mem_codes_cons {t : CodeTree} {y : Symb} {e : Elem} {k : List Elem} (h : (y, e :: k) ∈ t.codes) :
    ∃ b u, bitOf e = some b ∧ t.child b = some u ∧ (y, k) ∈ u.codes := by
  cases t with
  | leaf z => simp [codes] at h
  | leftOnly l =>
    obtain ⟨hk, rfl⟩ : (y, k) ∈ l.codes ∧ bit0Code = e := by simpa [codes] using h
    exact ⟨false, l, rfl, rfl, hk⟩
  | rightOnly r =>
    obtain ⟨hk, rfl⟩ : (y, k) ∈ r.codes ∧ bit1Code = e := by simpa [codes] using h
    exact ⟨true, r, rfl, rfl, hk⟩
  | both l r =>
    obtain ⟨hk, rfl⟩ | ⟨hk, rfl⟩ : ((y, k) ∈ l.codes ∧ bit0Code = e) ∨ ((y, k) ∈ r.codes ∧ bit1Code = e) := by
      simpa [codes] using h
    · exact ⟨false, l, rfl, rfl, hk⟩
    · exact ⟨true, r, rfl, rfl, hk⟩

/-- A tree of R105 is no bare leaf, so none of its codes is empty. -/
theorem CodeTree.code_ne_nil {t : CodeTree} {c : Symb × List Elem} (ht : t.meetsD0 = true) (h : c ∈ t.codes) :
    c.2 ≠ [] := by
  obtain ⟨y, k⟩ := c
  rintro rfl
  rw [mem_codes_nil.1 h] at ht
  cases ht

/-! ### Decode along a code -/

section
variable {root : CodeTree} {p : Option CodeTree} {y : Symb} {e : Elem} {k cut rest : List Elem}

/-- The last element of a code delivers its symbol. -/
theorem decodeFrom_last (h : (y, [e]) ∈ (p.getD root).codes) (es : List Elem) :
    decodeFrom root p (e :: es) = (decodeFrom root none es).map (y :: ·) := by
  obtain ⟨b, u, hb, hc, hu⟩ := CodeTree.mem_codes_cons h
  rw [CodeTree.mem_codes_nil.1 hu] at hc
  exact decodeFrom_leaf hb hc

/-- An element before the last one moves the walk to a subtree that has the rest of the code. -/
theorem decodeFrom_inner (h : (y, e :: k) ∈ (p.getD root).codes) (hk : k ≠ []) :
    ∃ u : CodeTree, (y, k) ∈ u.codes ∧ ∀ es, decodeFrom root p (e :: es) = decodeFrom root (some u) es := by
  obtain ⟨b, u, hb, hc, hu⟩ := CodeTree.mem_codes_cons h
  refine ⟨u, hu, fun es => decodeFrom_node hb hc ?_⟩
  rintro z rfl
  obtain ⟨-, rfl⟩ : y = z ∧ k = [] := by simpa [CodeTree.codes] using hu
  exact hk rfl

/-- A whole code delivers its symbol and the walk is back at the root. -/
theorem decodeFrom_code (h : (y, k) ∈ (p.getD root).codes) (hk : k ≠ []) (es : List Elem) :
    decodeFrom root p (k ++ es) = (decodeFrom root none es).map (y :: ·) := by
  induction k generalizing p with
  | nil => exact absurd rfl hk
  | cons e k ih =>
    cases k with
    | nil => exact decodeFrom_last h es
    | cons e' k =>
      obtain ⟨u, hu, hstep⟩ := decodeFrom_inner h (by simp)
      exact (hstep _).trans (ih (p := some u) hu (by simp))

/-- After some but not all elements of a code the walk is away from the root, where decode ends in Incomplete. -/
theorem decodeFrom_cut (h : (y, cut ++ rest) ∈ (p.getD root).codes) (hcut : cut ≠ []) (hrest : rest ≠ []) :
    decodeFrom root p cut = .error .incomplete := by
  induction cut generalizing p with
  | nil => exact absurd rfl hcut
  | cons e cut ih =>
    obtain ⟨u, hu, hstep⟩ := decodeFrom_inner h (by simp [hrest])
    rw [hstep]
    cases cut with
    | nil => rfl
    | cons e' cut => exact ih (p := some u) hu (by simp)

end

/-- The codes of a message deliver its symbols, one code after another. -/
theorem decodeFrom_codeElems {root : CodeTree} {msg : List (Symb × List Elem)} (hroot : root.meetsD0 = true)
    (hmsg : ∀ c ∈ msg, c ∈ root.codes) (es : List Elem) :
    decodeFrom root none (codeElems msg ++ es) = (decodeFrom root none es).map (msg.map (·.1) ++ ·) := by
  induction msg with
  | nil => cases h : decodeFrom root none es <;> simp [codeElems, h, Except.map]
  | cons c msg ih =>
    have hc : c ∈ root.codes := hmsg c (by simp)
    have hstep := decodeFrom_code (p := none) hc (CodeTree.code_ne_nil hroot hc) (codeElems msg ++ es)
    rw [ih fun d hd => hmsg d (by simp [hd])] at hstep
    rw [codeElems, List.flatMap_cons, List.append_assoc]
    refine hstep.trans ?_
    cases decodeFrom root none es <;> rfl

/-- Settles O52: HDEC ends the session as decode does on the codes, and decode delivers the message or ends in Incomplete. -/
theorem codesDecodeToTheirMessage : Obligations.CodesDecodeToTheirMessage := by
  intro s root msg cut pop hs hroot hd0 hmsg hcut hrun
  obtain ⟨t, popped, hend, hhost, hgot, hout⟩ := sessionComputesDecode s (some root) _ pop hs hroot hrun
  refine ⟨t, popped, hend, hhost, hgot, ?_⟩
  rw [decodeBits, decodeFrom_codeElems hd0 hmsg] at hout
  by_cases hempty : cut = []
  · subst hempty
    exact ⟨fun _ => by simpa [decodeFrom, Except.map] using hout, fun h => absurd rfl h⟩
  · obtain ⟨⟨y, k⟩, hk, ⟨rest, rfl⟩, hne⟩ := hcut.resolve_left hempty
    rw [decodeFrom_cut (p := none) hk hempty (by simpa using hne)] at hout
    exact ⟨fun h => absurd h hempty, fun _ => hout⟩

end Sys2Proof.Machine
end

section
/-!
PROOFS. The order of a pop and a command at one edge (spec/43_output_readback.md R114). A command reads FIFO only through FIFO_FULL
and writes it only at the tail or by clearing it, so a pop of the head commutes with it up to what the host has received.
-/
namespace Sys2Proof.Machine

/-! ### Edges that pop -/

theorem popSymbol_setHost (s : State) (h : List HostStep) : (s.setHost h).popSymbol = s.popSymbol.setHost h := by
  cases hf : s.fifo with
  | nil => rw [s.popSymbol_nil hf, (s.setHost h).popSymbol_nil hf]
  | cons y ys => rw [s.popSymbol_cons hf, (s.setHost h).popSymbol_cons hf]; rfl

section
variable {s : State} {p : PortIn} {rest : List HostStep} (h : s.host = .edge p :: rest)
include h

theorem step_pop_accept (ha : accepts p s = true) (hp : p.symReady = true) :
    step s = stepCommand p.cmdData (s.setHost rest).popSymbol := by
  rw [step_accept h ha, popEdge_eq p _ ((accepts_iff p s).1 ha).2.1, if_pos hp]

theorem step_accept_no_pop (ha : accepts p s = true) (hp : p.symReady = false) :
    step s = stepCommand p.cmdData (s.setHost rest) := by
  rw [step_accept h ha, popEdge_eq p _ ((accepts_iff p s).1 ha).2.1, hp, if_neg Bool.false_ne_true]

theorem step_pop_no_accept (hr : p.rst = false) (ha : accepts p s = false) (hp : p.symReady = true) :
    step s = .next (s.setHost rest).popSymbol := by
  rw [step_no_accept h hr ha, popEdge_eq p _ hr, if_pos hp]

end

/-- A command that an edge accepts is accepted at the edge after a pop, for a pop makes no FIFO full. -/
theorem step_accept_after_pop {s : State} {p : PortIn} (rest : List HostStep) (ha : accepts p s = true)
    (hp : p.symReady = false) (hle : s.fifo.length ≤ s.fifoDepth.val) :
    step (s.setHost (.edge p :: rest)).popSymbol = stepCommand p.cmdData (s.setHost rest).popSymbol := by
  obtain ⟨hv, hr, hheld⟩ := (accepts_iff p s).1 ha
  have hfree := (popOf_popSymbol s (.edge p :: rest)).holds (fun _ => hle) hheld
  rw [step_accept_no_pop (State.popSymbol_host _) ((accepts_iff p _).2 ⟨hv, hr, hfree⟩) hp, popSymbol_setHost,
    popSymbol_setHost]
  rfl

/-- R114: what one edge with a pop and an accepted command does, the pop alone and then the command alone do. -/
theorem step_pop_then_command {s : State} {p : PortIn} {rest : List HostStep} (h : s.host = .edge p :: rest)
    (ha : accepts p s = true) (hp : p.symReady = true) (hle : s.fifo.length ≤ s.fifoDepth.val) :
    ∃ t, step { s with host := .edge { p with cmdValid := false } :: .edge { p with symReady := false } :: rest } = .next t ∧
      step s = step t := by
  obtain ⟨-, hr, -⟩ := (accepts_iff p s).1 ha
  refine ⟨_, step_pop_no_accept rfl hr rfl hp, (step_pop_accept h ha hp).trans ?_⟩
  exact (step_accept_after_pop (p := { p with symReady := false }) rest ha rfl hle).symm

/-! ### The command first -/

/-- `exec_cases` backwards, for every command. -/
theorem exec_of_effect {i : Instr} {s t : State} (h : Effect i s t) : exec i s = .next t := by
  by_cases hbit : ∃ e, i = .bit e
  · obtain ⟨e, rfl⟩ := hbit
    exact exec_bit_of_effect h
  cases h with
  | discarded hv =>
    obtain ⟨hs, hi⟩ := (verdict_discard_iff _ _).1 hv
    exact exec_error hs hi
  | violation hv => exact exec_of_violates hv
  | nop => exact exec_nop s
  | setaddr => exact exec_setaddr _ s
  | wnode ho => exact exec_wnode_outside _ ho
  | setroot ho => exact exec_setroot_outside _ _ ho
  | start ho => exact exec_start_outside ho
  | finished ha hc => exact exec_finish_done (s.active_iff.1 ha) hc
  | incomplete hr hc => exact exec_finish_incomplete hr hc
  | abort => exact exec_abort s
  | skipped | invalid | malformed | emitted | descended => exact absurd ⟨_, rfl⟩ hbit

/-- FIFO is not full after a pop, since FIFO_DEPTH is at least 1. -/
theorem fifoFull_popSymbol {s : State} (hle : s.fifo.length ≤ s.fifoDepth.val) : fifoFull s.popSymbol = false := by
  refine fifoFull_eq_false ?_
  have hpos := s.fifoDepth.positive
  rw [State.popSymbol_fifo, State.popSymbol_fifoDepth, List.length_tail]
  omega

/-- A command has the same effect before and after the pop of a symbol that stands in FIFO before both. START and ABORT are why
what the host has received is left out: they clear FIFO, so a pop after them delivers nothing. -/
theorem Effect.popSymbol {i : Instr} {s a : State} (h : Effect i s a) (hne : s.fifo ≠ [])
    (hle : s.fifo.length ≤ s.fifoDepth.val) :
    ∃ b, Effect i s.popSymbol b ∧ { a.popSymbol with received := [] } = { b with received := [] } := by
  have hfull := fifoFull_popSymbol hle
  obtain ⟨y, ys, hf⟩ := List.exists_cons_of_ne_nil hne
  obtain ⟨⟩ := s
  cases hf
  cases h with
  | discarded hv => exact ⟨_, .discarded hv, rfl⟩
  | violation hv he => exact ⟨_, .violation hv he, rfl⟩
  | nop => exact ⟨_, .nop, rfl⟩
  | setaddr => exact ⟨_, .setaddr, rfl⟩
  | wnode ho => exact ⟨_, .wnode ho, rfl⟩
  | setroot ho => exact ⟨_, .setroot ho, rfl⟩
  | start ho => exact ⟨_, .start ho, rfl⟩
  | finished ha hc => exact ⟨_, .finished ha hc, rfl⟩
  | incomplete hr hc => exact ⟨_, .incomplete hr hc, rfl⟩
  | abort => exact ⟨_, .abort, rfl⟩
  | skipped hs => exact ⟨_, .skipped hs, rfl⟩
  | invalid hr _ hb => exact ⟨_, .invalid hr hfull hb, rfl⟩
  | malformed hr _ hn hs => exact ⟨_, .malformed hr hfull hn hs, rfl⟩
  | emitted hr _ hn hs hm hl => exact ⟨_, .emitted hr hfull hn hs hm hl, rfl⟩
  | descended hr _ hn hs hm hl => exact ⟨_, .descended hr hfull hn hs hm hl, rfl⟩

/-- An accepted word before the pop or after it: the same registers, FIFO and node memory. -/
theorem stepCommand_popSymbol {w : Word32} {s a : State} (h : stepCommand w s = .next a) (hne : s.fifo ≠ [])
    (hle : s.fifo.length ≤ s.fifoDepth.val) :
    ∃ b, stepCommand w s.popSymbol = .next b ∧ { a.popSymbol with received := [] } = { b with received := [] } := by
  obtain ⟨⟨r, hd⟩, hs, rfl⟩ | ⟨⟨r, hd⟩, hs, rfl⟩ | ⟨i, hd, hE⟩ := stepCommand_cases h
  · refine ⟨_, stepCommand_error _ hd, ?_⟩
    rw [State.commandError_of_error _ _ _ (a.popSymbol_state.trans hs)]
  · refine ⟨_, stepCommand_error _ hd, ?_⟩
    obtain ⟨y, ys, hf⟩ := List.exists_cons_of_ne_nil hne
    rw [State.commandError_of_ne _ _ _ (ne_of_eq_of_ne s.popSymbol_state hs), s.popSymbol_cons hf,
      (s.withError .illegalCommand w).popSymbol_cons hf]
    rfl
  · obtain ⟨b, hb, heq⟩ := hE.popSymbol hne hle
    exact ⟨b, (stepCommand_ok _ hd).trans (exec_of_effect hb), heq⟩

/-! ### A held BIT -/

/-- R148: `cmd_ready` is that of the state before the edge, so the pop of the edge does not lift the hold for it. -/
theorem accepts_bit_full {s : State} {p : PortIn} {e : Elem} (hw : p.cmdData = encode (.bit e)) (hr : s.state = .run)
    (hf : s.fifo.length = s.fifoDepth.val) : accepts p s = false := by
  have hop : opcodeOf p.cmdData = 0x5#4 := hw ▸ Laws.EncodedOpcode.bit e
  have hheld : holds p.cmdData s = true := by simp [holds, fifoFull, fifoCount, hr, hf, hop]
  simp [accepts, cmdReady, hheld]

/-- Settles O12: `step_pop_then_command`, `stepCommand_popSymbol` for the other order, and `accepts_bit_full`. -/
theorem sameEdgePopThenCommand : Obligations.SameEdgePopThenCommand := by
  refine ⟨fun s p rest h ha hp hle => ⟨step_pop_then_command h ha hp hle, fun a b hne hcmd hstep => ?_⟩,
    fun s p rest e y ys h hr hp hw hs hfull hf => ?_⟩
  · obtain ⟨b', hb', heq⟩ := stepCommand_popSymbol (s := s.setHost rest) hcmd hne hle
    rw [step_pop_accept h ha hp, hb'] at hstep
    cases hstep
    exact heq
  · rw [step_pop_no_accept h hr (accepts_bit_full hw hs hfull) hp, State.popSymbol_cons (s.setHost rest) hf]
    rfl

end Sys2Proof.Machine
end

section
/-!
PROOFS. The errors of spec/60_exceptions.md: `ErrorRow` lists the causes and ERR_DATA of R120, `stepCommand_raises` says that an
accepted word enters ERROR by one of its rows, and `step_from_error` says once what a step from ERROR can do.
-/
namespace Sys2Proof.Machine

/-! ### Each error from its cause -/

theorem bitOf_eq_none_iff (e : Elem) : bitOf e = none ↔ e ≠ 0x30#8 ∧ e ≠ 0x31#8 := by
  unfold bitOf bit0Code bit1Code
  split
  · simp_all
  · split <;> simp_all

/-- Settles O28: in RUN the effect is `Effect.invalid`, and in SKIP the element is counted and not examined. -/
theorem invalidElementRaisesInvalidBit : Obligations.InvalidElementRaisesInvalidBit := by
  refine fun s e => ⟨fun hr hf h0 h1 => ?run, fun hs t h => ?skip⟩
  case run => exact exec_bit_of_effect (.invalid hr (fifoFull_eq_false hf) ((bitOf_eq_none_iff e).2 ⟨h0, h1⟩))
  case skip =>
    rw [exec_bit_skip e hs] at h
    cases h
    exact ⟨hs, rfl⟩

/-- Settles O29: the effect is `Effect.malformed`, which reads no entry but that at CUR. -/
theorem absentChildRaisesMalformed : Obligations.AbsentChildRaisesMalformed := fun _ _ _ => exec_bit_absent

theorem finishErrData_cur (i : NodeIdx) : (finishErrData i).extractLsb' 16 9 = i := by
  rw [finishErrData, BitVec.extractLsb'_append_eq_of_le le_rfl]
  exact BitVec.extractLsb'_append_eq_right

theorem finishErrData_low (i : NodeIdx) : (finishErrData i).extractLsb' 0 8 = 0#8 := by
  rw [finishErrData, BitVec.extractLsb'_append_eq_of_add_le (by decide)]
  rfl

/-- Settles O34: error entry with the ERR_DATA of R120's row 3, whose two fields are the ones read off. -/
theorem finishAwayFromRootIsIncomplete : Obligations.FinishAwayFromRootIsIncomplete := by
  intro w s hd hr hc
  exact ⟨_, (stepCommand_ok s hd).trans (exec_finish_incomplete hr hc), rfl, rfl, rfl, finishErrData_cur s.cur,
    finishErrData_low s.cur⟩

/-- Settles O35: the word StateViolation records is the command's, which is the accepted word (log 10). -/
theorem wrongStateRaisesStateViolation : Obligations.WrongStateRaisesStateViolation := by
  intro w i s hd hv
  rw [stepCommand_ok s hd, exec_of_violates hv, encode_of_decode hd]

/-! ### The rows of R120 -/

/-- Rows 1 to 5 of R120: accepting `w` in `s` is a cause of this error, and this is its ERR_DATA. -/
inductive ErrorRow (w : Word32) (s : State) : ErrCode → Word32 → Prop where
  | invalidBit {e} : s.state = .run → decode w = .ok (.bit e) → e ≠ 0x30#8 → e ≠ 0x31#8 →
      ErrorRow w s .invalidBit (elemErrData s.cur e)
  | malformed {e n} : s.state = .run → decode w = .ok (.bit e) → memRead s.nodeMem s.cur = some n → selectsAbsent e n →
      ErrorRow w s .malformed (elemErrData s.cur e)
  | incomplete : s.state = .run → decode w = .ok .finish → s.cur ≠ s.rootIdx →
      ErrorRow w s .incomplete (finishErrData s.cur)
  | illegalCommand : wordLegal w = false → ErrorRow w s .illegalCommand w
  | stateViolation {i} : decode w = .ok i → violates i s.state → ErrorRow w s .stateViolation w

theorem ErrorRow.code_ne_none {w : Word32} {s : State} {code : ErrCode} {data : Word32} (h : ErrorRow w s code data) :
    code ≠ .none := by
  cases h <;> decide

theorem not_legal_of_decode {w : Word32} {r : DecodeError} (h : decode w = .error r) : wordLegal w = false := by
  have hl : ¬ wordLegal w = true := by simp [wordLegal_iff_decodes, h]
  exact eq_false_of_ne_true hl

theorem openState_ne_error (rv : Bool) : openState rv ≠ .error := by cases rv <;> decide

/-- A command that enters ERROR does it by error entry, for the cause of a row. -/
theorem Effect.raises {w : Word32} {i : Instr} {s t : State} (h : Effect i s t) (hd : decode w = .ok i)
    (hs : s.state ≠ .error) (ht : t.state = .error) : ∃ code data, ErrorRow w s code data ∧ t = s.withError code data := by
  cases h with
  | discarded | nop | setaddr | wnode | setroot | skipped | emitted | descended => exact absurd ht hs
  | start => exact absurd ht (openState_ne_error _)
  | finished | abort => cases ht
  | violation hv => exact ⟨_, _, .stateViolation hd hv, by rw [encode_of_decode hd]⟩
  | incomplete hr hc => exact ⟨_, _, .incomplete hr hd hc, rfl⟩
  | invalid hr _ hb =>
    obtain ⟨h0, h1⟩ := (bitOf_eq_none_iff _).1 hb
    exact ⟨_, _, .invalidBit hr hd h0 h1, rfl⟩
  | malformed hr _ hn ha => exact ⟨_, _, .malformed hr hd hn ha, rfl⟩

/-- An accepted word that enters ERROR does it by error entry, for the cause of a row. -/
theorem stepCommand_raises {w : Word32} {s t : State} (h : stepCommand w s = .next t) (hs : s.state ≠ .error)
    (ht : t.state = .error) : ∃ code data, ErrorRow w s code data ∧ t = s.withError code data := by
  obtain ⟨-, he, -⟩ | ⟨⟨r, hd⟩, -, rfl⟩ | ⟨i, hd, hE⟩ := stepCommand_cases h
  · exact absurd he hs
  · exact ⟨_, _, .illegalCommand (not_legal_of_decode hd), rfl⟩
  · exact hE.raises hd hs ht

/-- Settles O33, row by row. -/
theorem errorRecordNamesItsCause : Obligations.ErrorRecordNamesItsCause := by
  intro w s t h hs ht
  obtain ⟨code, data, hrow, rfl⟩ := stepCommand_raises h hs ht
  refine ⟨rfl, ?_⟩
  cases hrow with
  | invalidBit hr hd h0 h1 => exact .inl ⟨rfl, hr, _, hd, h0, h1, rfl⟩
  | malformed hr hd hn ha => exact .inr (.inl ⟨rfl, hr, _, _, hd, hn, ha, rfl⟩)
  | incomplete hr hd hc => exact .inr (.inr (.inl ⟨rfl, hr, hd, hc, rfl⟩))
  | illegalCommand hl => exact .inr (.inr (.inr (.inl ⟨rfl, hl, rfl⟩)))
  | stateViolation hd hv => exact .inr (.inr (.inr (.inr ⟨rfl, ⟨_, hd, hv⟩, rfl⟩)))

/-- Settles O36: error entry is the whole of what the raising word does. -/
theorem errorsArePrecise : Obligations.ErrorsArePrecise := by
  intro w s t h hs ht
  obtain ⟨code, data, hrow, heq⟩ := stepCommand_raises h hs ht
  exact ⟨code, data, hrow.code_ne_none, heq⟩

/-! ### In ERROR -/

/-- ERR_CODE, ERR_POS and ERR_DATA are those of `s`. -/
def State.SameRecord (s t : State) : Prop := t.errCode = s.errCode ∧ t.errPos = s.errPos ∧ t.errData = s.errData

/-- ERR_CODE, ERR_POS and ERR_DATA are 0, as START, ABORT and reset leave them (R130). -/
def State.NoRecord (t : State) : Prop := t.errCode = .none ∧ t.errPos = 0#32 ∧ t.errData = 0#32

theorem PopOf.sameRecord {s s' : State} (h : PopOf s s') : s.SameRecord s' := ⟨h.errCode, h.errPos, h.errData⟩

theorem State.SameRecord.trans {s s' t : State} (h : s.SameRecord s') (h' : s'.SameRecord t) : s.SameRecord t := by
  obtain ⟨hc, hp, hd⟩ := h
  obtain ⟨hc', hp', hd'⟩ := h'
  exact ⟨hc'.trans hc, hp'.trans hp, hd'.trans hd⟩

theorem ne_error_of_active {s : State} (h : s.active = true) : s.state ≠ .error := by
  obtain hr | hk := s.active_iff.1 h
  · simp [hr]
  · simp [hk]

/-- In ERROR no command makes error entry, and START and ABORT alone write STATE or the record (R128, R130). -/
theorem Effect.from_error {i : Instr} {s t : State} (h : Effect i s t) (hs : s.state = .error) :
    (t.state = .error ∧ s.SameRecord t) ∨
    (t.NoRecord ∧ ((i = .start ∧ (t.state = .run ∨ t.state = .skip)) ∨ (i = .abort ∧ t.state = .idle))) := by
  cases h with
  | discarded | nop | setaddr | wnode | setroot => exact .inl ⟨hs, rfl, rfl, rfl⟩
  | start => exact .inr ⟨⟨rfl, rfl, rfl⟩, .inl ⟨rfl, openState_eq_run_or_skip _⟩⟩
  | abort => exact .inr ⟨⟨rfl, rfl, rfl⟩, .inr ⟨rfl, rfl⟩⟩
  | violation _ hne => exact absurd hs hne
  | finished ha => exact absurd hs (ne_error_of_active ha)
  | incomplete hr | skipped hr | invalid hr | malformed hr | emitted hr | descended hr => simp [hs] at hr

/-- Everything a step from ERROR can do to STATE and the record. -/
theorem step_from_error {s t : State} (hs : s.state = .error) (h : step s = .next t) :
    (t.state = .error ∧ s.SameRecord t) ∨
    (t.NoRecord ∧
      ((acceptedWord s = some (encode .start) ∧ (t.state = .run ∨ t.state = .skip)) ∨
       (acceptedWord s = some (encode .abort) ∧ t.state = .idle) ∨
       (resetsNext s = true ∧ t.state = .idle))) := by
  cases stepEffect_of_step h with
  | kept hp | read hp => exact .inl ⟨hp.state.trans hs, hp.sameRecord⟩
  | reset hr => exact .inr ⟨⟨rfl, rfl, rfl⟩, .inr (.inr ⟨hr, rfl⟩)⟩
  | illegal hp _ hne => exact absurd (hp.state.trans hs) hne
  | command hp hw hE =>
    obtain ⟨ht, hkept⟩ | ⟨hclear, ⟨rfl, ht⟩ | ⟨rfl, ht⟩⟩ := hE.from_error (hp.state.trans hs)
    · exact .inl ⟨ht, hp.sameRecord.trans hkept⟩
    · exact .inr ⟨hclear, .inl ⟨hw, ht⟩⟩
    · exact .inr ⟨hclear, .inr (.inl ⟨hw, ht⟩)⟩

theorem stepCommand_illegal_in_error {w : Word32} {s : State} (hs : s.state = .error) (hl : wordLegal w = false) :
    stepCommand w s = .next s := by
  obtain ⟨r, hd⟩ := decode_of_not_legal hl
  rw [stepCommand_error s hd, State.commandError_of_error _ _ _ hs]

/-- Settles O37: `step_from_error` for the record, and the verdicts X and D of R76's column ERROR for the rest. -/
theorem firstErrorWins : Obligations.FirstErrorWins := by
  refine ⟨fun s t hs h => ?record, fun w s hs hw => ?ineffective, fun s hs => ?effective⟩
  case record =>
    obtain ⟨-, hkept⟩ | ⟨hclear, ⟨hw, -⟩ | ⟨hw, -⟩ | ⟨hr, -⟩⟩ := step_from_error hs h
    · exact .inl hkept
    · exact .inr ⟨.inr (.inl hw), hclear⟩
    · exact .inr ⟨.inr (.inr hw), hclear⟩
    · exact .inr ⟨.inl hr, hclear⟩
  case ineffective =>
    obtain hd | ⟨e, hd⟩ | hl := hw
    · exact (stepCommand_ok s hd).trans (exec_error hs (.inl rfl))
    · exact (stepCommand_ok s hd).trans (exec_error hs (.inr ⟨e, rfl⟩))
    · exact stepCommand_illegal_in_error hs hl
  case effective =>
    have ho : outside s.state := .inr (.inr hs)
    exact ⟨exec_nop s, fun a => exec_setaddr a s,
      fun n => ⟨_, exec_wnode_outside n ho, memRead_memWrite_same _ _ n⟩, fun rv i => exec_setroot_outside rv i ho⟩

/-- Settles O38: `step_from_error` where STATE is written, and the tree-load commands write none. -/
theorem leavingErrorState : Obligations.LeavingErrorState := by
  refine ⟨fun s t hs h hne => ?leaves, fun s hs => ?reloads⟩
  case leaves =>
    obtain ⟨ht, -⟩ | ⟨⟨hc, hp, hd⟩, hway⟩ := step_from_error hs h
    · exact absurd ht hne
    · exact ⟨hc, hp, hd, hway⟩
  case reloads =>
    have ho : outside s.state := .inr (.inr hs)
    exact ⟨fun a => ⟨_, exec_setaddr a s, hs, rfl⟩,
      fun n => ⟨_, exec_wnode_outside n ho, hs, memRead_memWrite_same _ _ n⟩,
      fun rv i => ⟨_, exec_setroot_outside rv i ho, hs, rfl, rfl⟩⟩

end Sys2Proof.Machine
end

section
/-!
PROOFS. Reset, the output-full hold and what a session and a command may rely on (spec/70_reset_and_hazards.md): the one edge that
resets, what does and does not lift the hold, the tree a session keeps, and that a command which is not held completes.
-/
namespace Sys2Proof.Machine

/-! ### Reset -/

/-- IDLE is no STATE of the hold (R141). -/
theorem cmdReady_applyReset (w : Word32) (s : State) : cmdReady false w s.applyReset = true := by
  have hfree : holds w s.applyReset = false := holds_eq_false_iff.2 fun hr => by simp at hr
  simp [cmdReady, hfree]

/-- Settles O16: `step_reset`, and the edge leaves IDLE with ROOT_VALID 0 (R143). -/
theorem resetEdge : Obligations.ResetEdge := by
  intro s p rest h hr
  have hstep := step_reset h hr
  refine ⟨by simp [accepts, cmdReady, hr], by simp [popsNext, h, symValid, hr], hstep, fun t ht => ?_⟩
  rw [hstep] at ht
  cases ht
  exact ⟨_, exec_start_outside (.inl rfl), rfl⟩

theorem rdData_status_applyReset (s : State) : rdData 0x0#4 s.applyReset = some 0x00000100#32 :=
  have ⟨_, hreset⟩ := statusLayout
  congrArg some (hreset s.fifoDepth)

/-- The registers at addresses 1 to 7 are 0 after a reset (R40). -/
theorem rdData_register_applyReset {a : RdAddr} (s : State) (h1 : 1 ≤ a.toNat) (h7 : a.toNat ≤ 7) :
    rdData a s.applyReset = some 0#32 := by
  unfold rdData
  split
  case h_1 | h_9 => omega
  case h_2 | h_3 | h_4 | h_5 | h_10 => rfl
  case h_6 | h_7 | h_8 => simp

/-- Settles O17: the pins by their formulas, the read registers address by address. -/
theorem portsDuringReset : Obligations.PortsDuringReset := fun s =>
  ⟨fun _ => rfl, rfl, rfl, rdData_status_applyReset s, fun _ => rdData_register_applyReset s,
    fun w => cmdReady_applyReset w s⟩

/-! ### The output-full hold -/

theorem holds_eq_true_iff {w : Word32} {s : State} :
    holds w s = true ↔ s.state = .run ∧ s.fifo.length = s.fifoDepth.val ∧ opcodeOf w = 0x5#4 := by
  simp [holds, fifoFull, fifoCount, and_assoc]

theorem cmdReady_iff {rst : Bool} {w : Word32} {s : State} :
    cmdReady rst w s = true ↔ rst = false ∧ ¬ holds w s = true := by
  simp [cmdReady]

/-- The hold reads STATE, FIFO and FIFO_DEPTH and nothing else (R148). -/
theorem cmdReady_congr {s t : State} (hs : t.state = s.state) (hf : t.fifo = s.fifo) (hd : t.fifoDepth = s.fifoDepth)
    (rst : Bool) (w : Word32) : cmdReady rst w t = cmdReady rst w s := by
  simp [cmdReady, holds, fifoFull, fifoCount, hs, hf, hd]

/-- An edge that presents a held word accepts none, so the pop is all it does. -/
theorem step_held {s : State} {p : PortIn} {rest : List HostStep} (h : s.host = .edge p :: rest) (hr : p.rst = false)
    (hheld : cmdReady false p.cmdData s = false) :
    step s = .next (if p.symReady = true then (s.setHost rest).popSymbol else s.setHost rest) := by
  rw [step_no_accept h hr (by simp [accepts, hr, hheld]), popEdge_eq p _ hr]

theorem popEdge_of_not_popsNext {s : State} {p : PortIn} {rest : List HostStep} (h : s.host = .edge p :: rest)
    (hpop : popsNext s = false) : popEdge p (s.setHost rest) = s.setHost rest :=
  if_neg (by simpa [popsNext, h] using hpop)

/-- NOP and SETADDR, the two commands that write no register the hold reads, in every STATE. -/
theorem stepCommand_keeps_cmdReady {w : Word32} {s t : State}
    (hw : w = encode .nop ∨ ∃ a, w = encode (.setaddr a)) (h : stepCommand w s = .next t) (rst : Bool) (v : Word32) :
    cmdReady rst v t = cmdReady rst v s := by
  obtain rfl | ⟨a, rfl⟩ := hw
  · rw [stepCommand_ok s (decodeOfEncode _), exec_nop] at h
    cases h
    rfl
  · rw [stepCommand_ok s (decodeOfEncode _), exec_setaddr] at h
    cases h
    exact cmdReady_congr rfl rfl rfl rst v

/-- What does not lift the hold, nor bring it about: a step without pop or reset that accepts no command, NOP or SETADDR. -/
theorem step_keeps_cmdReady {s t : State}
    (hw : acceptedWord s = none ∨ acceptedWord s = some (encode .nop) ∨ ∃ a, acceptedWord s = some (encode (.setaddr a)))
    (hpop : popsNext s = false) (hreset : resetsNext s = false) (h : step s = .next t) (w : Word32) :
    cmdReady false w t = cmdReady false w s := by
  obtain ⟨-, rfl⟩ | ⟨a, v, rest, -, -, rfl⟩ | ⟨p, rest, hh, hr, -⟩ | ⟨p, rest, hh, -, -, rfl⟩ | ⟨p, rest, hh, -, ha, hcmd⟩ :=
    step_cases h
  · rfl
  · exact cmdReady_congr rfl rfl rfl false w
  · simp [resetsNext_edge hh, hr] at hreset
  · rw [popEdge_of_not_popsNext hh hpop]
    exact cmdReady_congr rfl rfl rfl false w
  · rw [popEdge_of_not_popsNext hh hpop] at hcmd
    have hword : p.cmdData = encode .nop ∨ ∃ a, p.cmdData = encode (.setaddr a) := by
      simpa [acceptedWord_edge hh, ha] using hw
    exact stepCommand_keeps_cmdReady hword hcmd false w

/-- A held BIT has no step (R148, log 12). -/
theorem exec_bit_held {e : Elem} {s : State} (hr : s.state = .run) (hf : s.fifo.length = s.fifoDepth.val) :
    exec (.bit e) s = .refused .commandHeld :=
  (exec_bit_run hr).trans (if_pos (beq_iff_eq.2 hf))

/-- Settles O10, clause by clause. -/
theorem fullFifoHoldsBit : Obligations.FullFifoHoldsBit := by
  refine ⟨fun rst w s => ?formula, fun _ _ _ => step_held, fun w s h => ⟨cmdReady_popSymbol h, cmdReady_applyReset w s⟩,
    fun w s t h hw hpop hreset hstep => ?notLifted, fun _ _ => exec_bit_held⟩
  case formula =>
    rw [cmdReady_iff, holds_eq_true_iff]
    rfl
  case notLifted => rw [step_keeps_cmdReady hw hpop hreset hstep, h]

/-! ### The tree during a session -/

theorem not_outside_of_active {s : State} (h : s.active = true) : ¬ outside s.state := by
  obtain hr | hs := s.active_iff.1 h
  · simp [outside, hr]
  · simp [outside, hs]

/-- WNODE and SETROOT alone write node memory and the root register, and neither does in a session (R126). -/
theorem Effect.tree_kept {i : Instr} {s t : State} (h : Effect i s t) (ha : s.active = true) :
    t.nodeMem = s.nodeMem ∧ t.rootValid = s.rootValid ∧ t.rootIdx = s.rootIdx := by
  cases h with
  | wnode ho | setroot ho => exact absurd ho (not_outside_of_active ha)
  | discarded | violation | nop | setaddr | start | finished | incomplete | abort | skipped | invalid | malformed
  | emitted | descended => exact ⟨rfl, rfl, rfl⟩

/-- Settles O47: only a command could write the tree, and `Effect.tree_kept` says that none does. -/
theorem treeFixedDuringSession : Obligations.TreeFixedDuringSession := by
  refine ⟨fun s t ha h => ?_, fun s ha => ⟨fun n => exec_wnode_active n ha, fun rv i => exec_setroot_active rv i ha⟩⟩
  cases stepEffect_of_step h with
  | kept hp | read hp | illegal hp => exact ⟨hp.nodeMem, .inl ⟨hp.rootValid, hp.rootIdx⟩⟩
  | reset hr => exact ⟨rfl, .inr hr⟩
  | command hp _ hE =>
    obtain ⟨hm, hv, hi⟩ := hE.tree_kept (hp.active.trans ha)
    exact ⟨hm.trans hp.nodeMem, .inl ⟨hv.trans hp.rootValid, hi.trans hp.rootIdx⟩⟩

/-! ### Every command completes -/

/-- The verdicts D and V always answer a next state (R75). -/
theorem exists_guarded_next {i : Instr} {s : State} {body : Answer} (h : verdict i s.state = .execute → ∃ t, body = .next t) :
    ∃ t, guarded i s body = .next t := by
  cases hv : verdict i s.state with
  | execute => exact (h hv).imp fun _ hb => (guarded_execute body hv).trans hb
  | discard => exact ⟨_, guarded_discard body hv⟩
  | violation => exact ⟨_, guarded_violation body hv⟩

/-- A valid element selects a child, present or absent (R122). -/
theorem exists_selects_or_selectsAbsent {e : Elem} (n : NodeWord) (he : e = 0x30#8 ∨ e = 0x31#8) :
    (∃ i, selects e n i) ∨ selectsAbsent e n := by
  obtain ⟨b, hb⟩ := bitOf_eq_some he
  cases hc : nodeChild n b with
  | none => exact .inr (selectsAbsent_of_nodeChild hb hc)
  | some i => exact .inl ⟨i, selects_of_nodeChild hb hc⟩

/-- The entries a BIT with element `e` reads at `s` are written: the one at CUR for a valid element, and that of the child it
selects. -/
def walkReadsWritten (e : Elem) (s : State) : Prop :=
  e = 0x30#8 ∨ e = 0x31#8 →
    ∃ n, memRead s.nodeMem s.cur = some n ∧ ∀ j, selects e n j → ∃ m, memRead s.nodeMem j = some m

theorem exists_exec_bit_run {e : Elem} {s : State} (hr : s.state = .run) (hf : s.fifo.length ≠ s.fifoDepth.val)
    (hwritten : walkReadsWritten e s) : ∃ t, exec (.bit e) s = .next t := by
  have hfree := fifoFull_eq_false hf
  by_cases he : e = 0x30#8 ∨ e = 0x31#8
  · obtain ⟨n, hn, hchild⟩ := hwritten he
    obtain ⟨i, hsel⟩ | habsent := exists_selects_or_selectsAbsent n he
    · obtain ⟨m, hm⟩ := hchild i hsel
      cases hl : isLeaf m with
      | true => exact ⟨_, exec_bit_of_effect (.emitted hr hfree hn hsel hm hl)⟩
      | false => exact ⟨_, exec_bit_of_effect (.descended hr hfree hn hsel hm hl)⟩
    · exact ⟨_, exec_bit_absent hr hf hn habsent⟩
  · exact ⟨_, exec_bit_of_effect (.invalid hr hfree ((bitOf_eq_none_iff e).2 (not_or.1 he)))⟩

/-- Settles O48: the rule of every command but BIT answers a next state wherever it runs; BIT in RUN is `exists_exec_bit_run`. -/
theorem everyCommandCompletes : Obligations.EveryCommandCompletes := by
  intro i s h
  cases i with
  | nop | setaddr | abort => exact ⟨_, rfl⟩
  | wnode | setroot | start => exact exists_guarded_next fun _ => ⟨_, rfl⟩
  | finish =>
    refine exists_guarded_next fun _ => ?_
    split
    · exact ⟨_, rfl⟩
    · exact ⟨_, rfl⟩
  | bit e =>
    by_cases hr : s.state = .run
    · obtain ⟨hf, hwritten⟩ := h e rfl hr
      exact exists_exec_bit_run hr hf hwritten
    · refine exists_guarded_next fun hv => ?_
      have hskip : s.state = .skip := by
        by_contra hs
        exact hr (run_of_bit hv hs)
      exact ⟨_, if_pos hskip⟩

end Sys2Proof.Machine
end

section
/-!
PROOFS. The sample words of spec/30_encoding.md R77 and spec/95_test_vectors.md section 3 at the decoder.
-/
namespace Sys2Proof.Machine

/-- Settles O1: every word is a literal, so the decoder's answer is what it computes to: first the nine words that are commands,
then the two with a reserved payload bit set (R71) and the one with a reserved opcode (R72). -/
theorem sampleWordsDecode : Obligations.SampleWordsDecode :=
  ⟨rfl, rfl, rfl, rfl, rfl, rfl, rfl, rfl, rfl,
    rfl, rfl,
    rfl⟩

end Sys2Proof.Machine
end
